-- ==== Sys2Proof/Word.lean ====
section
/-! DEFINITION. The machine's plain value types (00_scope.md R6, R9). Bit 0 is the least significant bit (R8). -/

namespace Sys2Proof

/-- A machine word: register, data-path, address and instruction width are all 32 bits (00_scope.md R6). -/
abbrev Word := BitVec 32

/-- One byte: an item of the input and output streams, and the smallest addressable unit of memory
(20_memory.md R41, R49). -/
abbrev Byte := BitVec 8

/-- The 4-bit index of a general register (10_state.md R21). -/
abbrev Reg := BitVec 4

end Sys2Proof
end

