-- ==== Sys2Proof/Syntax.lean ====
section
/-! DEFINITION. The Instruction value of 30_encoding.md R61: one constructor per mnemonic of spec/opcode_table.json.
The two PUSH rows decode to one value (R70: "indistinguishable"), and so do the four HALT rows (R73), so each has one
constructor (log entry 19). NoOp has no encoding and no row (R74); it is no constructor here (log entry 18). -/

namespace Sys2Proof

/-- The sixteen condition codes in the order of their numbers 0 to 15 (40_condition.md R100). -/
inductive Cond where
  | e | ne | geu | lu | n | nn | o | no | gu | leu | ge | l | g | le | f | t
  deriving DecidableEq, Repr

/-- The fields of a format A word besides opcode and condition (30_encoding.md R63). All of them are carried in the
decoded value, used or not (41_arithmetic.md R133); `imm` is sign-extended to 32 bits (30_encoding.md R76). -/
structure ArithFields where
  setFlags : Bool
  usesReg  : Bool
  imm      : Word
  regA     : Reg
  regB     : Reg
  regD     : Reg
  deriving DecidableEq, Repr

/-- The decoded instruction (30_encoding.md R75). Every constructor ends in its condition (R62). -/
inductive Instr where
  /-- OR, Arithmetic opcode 0 (41_arithmetic.md R121). -/
  | or (fields : ArithFields) (cond : Cond)
  /-- XOR, Arithmetic opcode 1 (R122). -/
  | xor (fields : ArithFields) (cond : Cond)
  /-- AND, Arithmetic opcode 2 (R123). -/
  | and (fields : ArithFields) (cond : Cond)
  /-- ANDN, Arithmetic opcode 3 (R124). -/
  | andn (fields : ArithFields) (cond : Cond)
  /-- `???`, the unassigned Arithmetic opcode 4 (R128): decodes, and raises IllegalInstruction when executed. -/
  | unassigned (fields : ArithFields) (cond : Cond)
  /-- ROL, Arithmetic opcode 5 (R125). -/
  | rol (fields : ArithFields) (cond : Cond)
  /-- ADD, Arithmetic opcode 6 (R126). -/
  | add (fields : ArithFields) (cond : Cond)
  /-- SUB, Arithmetic opcode 7 (R127). -/
  | sub (fields : ArithFields) (cond : Cond)
  /-- LDHI, LoadHigh (42_loadhigh.md R150): the unshifted constant, zero-extended (30_encoding.md R77). -/
  | ldhi (constant : Word) (regD : Reg) (cond : Cond)
  /-- READ, MemoryRead (43_memory_access.md R155): sign-extended offset, base, destination. -/
  | read (offset : Word) (regA regD : Reg) (cond : Cond)
  /-- WRITE, MemoryWrite (R156): sign-extended offset, base, stored register. The slot `w[7:4]` is no part of the
  value (30_encoding.md R69). -/
  | write (offset : Word) (regA regB : Reg) (cond : Cond)
  /-- PUSH (44_stack.md R170) and its alias row (R172). -/
  | push (regA : Reg) (cond : Cond)
  /-- POP (44_stack.md R171). -/
  | pop (regD : Reg) (cond : Cond)
  /-- HALT (45_system.md R180), all twelve unassigned selectors. -/
  | halt (cond : Cond)
  deriving DecidableEq, Repr

/-- The condition code an instruction carries (30_encoding.md R62). -/
def Instr.cond : Instr → Cond
  | .or _ c | .xor _ c | .and _ c | .andn _ c | .unassigned _ c | .rol _ c | .add _ c | .sub _ c => c
  | .ldhi _ _ c => c
  | .read _ _ _ c => c
  | .write _ _ _ c => c
  | .push _ c => c
  | .pop _ c => c
  | .halt c => c

/-- The mnemonic of the instruction's row in spec/opcode_table.json (30_encoding.md R87). -/
def Instr.mnemonic : Instr → String
  | .or _ _ => "OR"
  | .xor _ _ => "XOR"
  | .and _ _ => "AND"
  | .andn _ _ => "ANDN"
  | .unassigned _ _ => "???"
  | .rol _ _ => "ROL"
  | .add _ _ => "ADD"
  | .sub _ _ => "SUB"
  | .ldhi _ _ _ => "LDHI"
  | .read _ _ _ _ => "READ"
  | .write _ _ _ _ => "WRITE"
  | .push _ _ => "PUSH"
  | .pop _ _ => "POP"
  | .halt _ => "HALT"

/-- The Arithmetic fields, for the eight instructions of format A. -/
def Instr.arithFields? : Instr → Option ArithFields
  | .or f _ | .xor f _ | .and f _ | .andn f _ | .unassigned f _ | .rol f _ | .add f _ | .sub f _ => some f
  | .ldhi _ _ _ | .read _ _ _ _ | .write _ _ _ _ | .push _ _ | .pop _ _ | .halt _ => none

end Sys2Proof
end

