-- ==== Sys2Proof/WellFormed.lean ====
section
/-! DEFINITION. Which Instruction values an encoding can carry: exactly the ranges of 30_encoding.md R67, R76 and R77.
Register indices and condition codes are in range by their types (R100, 10_state.md R21). -/

namespace Sys2Proof

/-- An Arithmetic immediate is a sign-extended 10-bit value, in [−512, 511] (30_encoding.md R76). -/
def immInRange (v : Word) : Bool := decide (-512 ≤ v.toInt) && decide (v.toInt ≤ 511)

/-- The selector confines a MemoryRead's offset to [0, 63] (30_encoding.md R67). -/
def readOffsetInRange (v : Word) : Bool := decide (0 ≤ v.toInt) && decide (v.toInt ≤ 63)

/-- The selector confines a MemoryWrite's offset to [−512, −449] (30_encoding.md R67). -/
def writeOffsetInRange (v : Word) : Bool := decide (-512 ≤ v.toInt) && decide (v.toInt ≤ -449)

/-- A LoadHigh constant is a zero-extended 22-bit value, in [0, 0x3FFFFF] (30_encoding.md R77). -/
def constantInRange (v : Word) : Bool := decide (v.toNat ≤ 0x3FFFFF)

/-- Well-formedness: the value of each immediate field is one its encoding can hold. -/
def Instr.wellFormed : Instr → Bool
  | .or f _ | .xor f _ | .and f _ | .andn f _ | .unassigned f _ | .rol f _ | .add f _ | .sub f _ => immInRange f.imm
  | .ldhi k _ _ => constantInRange k
  | .read off _ _ _ => readOffsetInRange off
  | .write off _ _ _ => writeOffsetInRange off
  | .push _ _ => true
  | .pop _ _ => true
  | .halt _ => true

end Sys2Proof
end

