-- ==== Sys2Proof/Decode.lean ====
section
/-! DEFINITION. The bit-field extractor, the dispatch of 30_encoding.md R61 to R75, the encoder that goes back (R92),
and the rows of spec/opcode_table.json as data (R83). Decoding is total and refuses no word (R75). -/

namespace Sys2Proof

/-- `sext_10`: a 10-bit field read as two's complement and widened to 32 bits (30_encoding.md R76). -/
def sext10 (v : BitVec 10) : Word := v.signExtend 32

/-- `zext_22`: the LoadHigh constant widened with zeros (30_encoding.md R77). -/
def zext22 (v : BitVec 22) : Word := v.zeroExtend 32

/-- The condition with a given number (40_condition.md R100). -/
def Cond.ofCode (b : BitVec 4) : Cond :=
  match b.toNat with
  | 0 => .e
  | 1 => .ne
  | 2 => .geu
  | 3 => .lu
  | 4 => .n
  | 5 => .nn
  | 6 => .o
  | 7 => .no
  | 8 => .gu
  | 9 => .leu
  | 10 => .ge
  | 11 => .l
  | 12 => .g
  | 13 => .le
  | 14 => .f
  | _ => .t

/-- The number of a condition (40_condition.md R100). -/
def Cond.code : Cond → BitVec 4
  | .e => 0#4
  | .ne => 1#4
  | .geu => 2#4
  | .lu => 3#4
  | .n => 4#4
  | .nn => 5#4
  | .o => 6#4
  | .no => 7#4
  | .gu => 8#4
  | .leu => 9#4
  | .ge => 10#4
  | .l => 11#4
  | .g => 12#4
  | .le => 13#4
  | .f => 14#4
  | .t => 15#4

/-- `condition = w[3:0]`, in every class (30_encoding.md R62). -/
def condOf (w : Word) : Cond := Cond.ofCode (w.extractLsb' 0 4)

/-- The 4-bit class selector of format M, `w[25:22]` (30_encoding.md R66). -/
def selectorOf (w : Word) : BitVec 4 := w.extractLsb' 22 4

/-- The immediate or offset, `sext_10(w[25:16])` (30_encoding.md R76). -/
def immOf (w : Word) : Word := sext10 (w.extractLsb' 16 10)

/-- The fields of format A (30_encoding.md R63). -/
def arithFieldsOf (w : Word) : ArithFields where
  setFlags := w[27]
  usesReg := w[26]
  imm := immOf w
  regA := w.extractLsb' 12 4
  regB := w.extractLsb' 8 4
  regD := w.extractLsb' 4 4

/-- The Arithmetic opcode map, `w[30:28]` (30_encoding.md R64). -/
def arithOfOpcode (op : BitVec 3) (f : ArithFields) (c : Cond) : Instr :=
  match op.toNat with
  | 0 => .or f c
  | 1 => .xor f c
  | 2 => .and f c
  | 3 => .andn f c
  | 4 => .unassigned f c
  | 5 => .rol f c
  | 6 => .add f c
  | _ => .sub f c

/-- The memory and system classes, by selector (30_encoding.md R66 to R73). A word of selector `1000` whose `w[7:4]` is
14 is a Push (R70); every selector that names no class is Halt (R73). -/
def decodeMemoryClass (w : Word) : Instr :=
  if selectorOf w = 0b0000#4 then
    .read (immOf w) (w.extractLsb' 8 4) (w.extractLsb' 4 4) (condOf w)
  else if selectorOf w = 0b1000#4 then
    if w.extractLsb' 4 4 = 14#4 then .push (w.extractLsb' 12 4) (condOf w)
    else .write (immOf w) (w.extractLsb' 8 4) (w.extractLsb' 12 4) (condOf w)
  else if selectorOf w = 0b0001#4 then .push (w.extractLsb' 12 4) (condOf w)
  else if selectorOf w = 0b0100#4 then .pop (w.extractLsb' 4 4) (condOf w)
  else .halt (condOf w)

/-- The whole decoder (30_encoding.md R75): total, never fails. -/
def decode (w : Word) : Instr :=
  if w[31] = false then
    arithOfOpcode (w.extractLsb' 28 3) (arithFieldsOf w) (condOf w)
  else if w[30] = false then
    .ldhi (zext22 (w.extractLsb' 8 22)) (w.extractLsb' 4 4) (condOf w)
  else decodeMemoryClass w

/-! ## The encoder -/

/-- Format A, `0ooosriiiiiiiiiiaaaabbbbddddcccc` (30_encoding.md R63). -/
def encodeArith (op : BitVec 3) (f : ArithFields) (c : Cond) : Word :=
  0#1 ++ op ++ BitVec.ofBool f.setFlags ++ BitVec.ofBool f.usesReg ++ f.imm.extractLsb' 0 10 ++ f.regA ++ f.regB
    ++ f.regD ++ c.code

/-- The word of an instruction, 0 in every ignored bit (30_encoding.md R80, D20). PUSH uses the row of R71, HALT the
selector `0010`, the first row of the table (log entry 20). Only the offset bits below the selector are written. -/
def encode : Instr → Word
  | .or f c => encodeArith 0 f c
  | .xor f c => encodeArith 1 f c
  | .and f c => encodeArith 2 f c
  | .andn f c => encodeArith 3 f c
  | .unassigned f c => encodeArith 4 f c
  | .rol f c => encodeArith 5 f c
  | .add f c => encodeArith 6 f c
  | .sub f c => encodeArith 7 f c
  | .ldhi k d c => 0b10#2 ++ k.extractLsb' 0 22 ++ d ++ c.code
  | .read off a d c => 0b11#2 ++ 0#4 ++ 0b0000#4 ++ off.extractLsb' 0 6 ++ 0#4 ++ a ++ d ++ c.code
  | .write off a b c => 0b11#2 ++ 0#4 ++ 0b1000#4 ++ off.extractLsb' 0 6 ++ b ++ a ++ 0#4 ++ c.code
  | .push a c => 0b11#2 ++ 0#4 ++ 0b0001#4 ++ 0#6 ++ a ++ 0#8 ++ c.code
  | .pop d c => 0b11#2 ++ 0#4 ++ 0b0100#4 ++ 0#14 ++ d ++ c.code
  | .halt c => 0b11#2 ++ 0#4 ++ 0b0010#4 ++ 0#18 ++ c.code

/-! ## The host's numbering of words -/

/-- The word whose low `nbits` bits are `w` and whose other bits are 0; none where the table gives more bits than an
instruction has (30_encoding.md R60). -/
def tableWord (nbits w : Nat) : Option Word :=
  if nbits ≤ 32 then some (BitVec.ofNat 32 (w % 2 ^ nbits)) else none

/-- The instruction the decoder reads from a word given as the opcode table numbers its bits. -/
def decodeTableWord (nbits w : Nat) : Option Instr := (tableWord nbits w).map decode

/-! ## The opcode table as data -/

/-- A row of spec/opcode_table.json: a word selects it when `(w & mask) = pattern` (30_encoding.md R83); `used` has a 1
for every bit of the row's encoding string that is not `x`, the bits the decoder does not ignore (R80). -/
structure OpcodeRow where
  mnemonic : String
  pattern  : Word
  mask     : Word
  used     : Word
  deriving DecidableEq, Repr

/-- The 18 rows in dispatch order (30_encoding.md R83). -/
def opcodeTable : List OpcodeRow :=
  [ ⟨"OR",    0x00000000#32, 0xF0000000#32, 0xFFFFFFFF#32⟩,
    ⟨"XOR",   0x10000000#32, 0xF0000000#32, 0xFFFFFFFF#32⟩,
    ⟨"AND",   0x20000000#32, 0xF0000000#32, 0xFFFFFFFF#32⟩,
    ⟨"ANDN",  0x30000000#32, 0xF0000000#32, 0xFFFFFFFF#32⟩,
    ⟨"???",   0x40000000#32, 0xF0000000#32, 0xFFFFFFFF#32⟩,
    ⟨"ROL",   0x50000000#32, 0xF0000000#32, 0xFFFFFFFF#32⟩,
    ⟨"ADD",   0x60000000#32, 0xF0000000#32, 0xFFFFFFFF#32⟩,
    ⟨"SUB",   0x70000000#32, 0xF0000000#32, 0xFFFFFFFF#32⟩,
    ⟨"LDHI",  0x80000000#32, 0xC0000000#32, 0xFFFFFFFF#32⟩,
    ⟨"READ",  0xC0000000#32, 0xC3C00000#32, 0xC3FF0FFF#32⟩,
    ⟨"PUSH",  0xC20000E0#32, 0xC3C000F0#32, 0xC3C0F0FF#32⟩,
    ⟨"WRITE", 0xC2000000#32, 0xC3C00000#32, 0xC3FFFFFF#32⟩,
    ⟨"PUSH",  0xC0400000#32, 0xC3C00000#32, 0xC3C0F00F#32⟩,
    ⟨"POP",   0xC1000000#32, 0xC3C00000#32, 0xC3C000FF#32⟩,
    ⟨"HALT",  0xC0800000#32, 0xC0800000#32, 0xC080000F#32⟩,
    ⟨"HALT",  0xC1400000#32, 0xC1C00000#32, 0xC1C0000F#32⟩,
    ⟨"HALT",  0xC2400000#32, 0xC3C00000#32, 0xC3C0000F#32⟩,
    ⟨"HALT",  0xC3000000#32, 0xC3C00000#32, 0xC3C0000F#32⟩ ]

/-- A word selects a row. -/
def OpcodeRow.selects (r : OpcodeRow) (w : Word) : Bool := w &&& r.mask == r.pattern

/-- The first row a word selects (30_encoding.md R83: "the first row whose `(w & mask) = match` holds decides"). -/
def opcodeRowOf (w : Word) : Option OpcodeRow := opcodeTable.find? (·.selects w)

end Sys2Proof
end

