-- ==== Sys2Proof/Config.lean ====
section
/-! DEFINITION. The fixed sizes of 00_scope.md R6 as constants, and the open parameters of R7 as one record of plain
data, `Config`. `State` carries a `Config` in its field `cfg` (log entry 1), so a statement about every state is a
statement about every value of every parameter. -/

namespace Sys2Proof

/-- The I/O port, byte address −512 (20_memory.md R47; `IO_ADDR` of 00_scope.md R6). -/
def ioAddr : Word := 0xFFFFFE00#32

/-- The stack pointer's register index (10_state.md R22; `SP` of 00_scope.md R6). -/
def spReg : Reg := 14#4

/-- How far PUSH and POP move the stack pointer (`STACK_STEP` of 00_scope.md R6). -/
def stackStep : Word := 4#32

/-- How far the sequencer advances after a completed step (10_state.md R26). -/
def pcStep : Word := 4#32

/-- `BYTE_ORDER`, the order of a word's bytes in memory (20_memory.md R46, D10): open, and no rule depends on it. -/
inductive ByteOrder where
  | little   -- the least significant byte at the lowest address
  | big      -- the most significant byte at the lowest address
  deriving DecidableEq, Repr

/-- `ANDN_COMPLEMENTS`, which operand opcode 3 complements (41_arithmetic.md R124, D5). -/
inductive AndnOperand where
  | a
  | b
  deriving DecidableEq, Repr

/-- The two kinds of word access (20_memory.md R43). -/
inductive MemOp where
  | read
  | write
  deriving DecidableEq, Repr

/-- A stretch of the address space that the platform backs with memory: `words` words of 4 bytes from byte address
`base` on. -/
structure Region where
  base  : Nat
  words : Nat
  deriving DecidableEq, Repr

/-- The open parameters of 00_scope.md R7 (the input stream is a field of `State`). Fixed for a run. -/
structure Config where
  /-- `cond_holds`, codes 0 to 14 (40_condition.md R102, D3): row `c`'s leftmost bit is the outcome for the flag state
  `NZCO = 0000`, its rightmost bit for `1111`. Code 15 has no row: it always holds (R100). -/
  condTable : Vector (BitVec 16) 15
  /-- `ANDN_COMPLEMENTS` (41_arithmetic.md R124, D5). -/
  andnComplements : AndnOperand
  /-- `mem_valid(addr)` (20_memory.md R48, D11): an address is valid when one of these regions holds it. -/
  memMap : List Region
  /-- The accesses the memory collaborator refuses for its own reason (60_exceptions.md R190, D11). -/
  memRefuses : List (MemOp × Word)
  /-- `BYTE_ORDER` (20_memory.md R46, D10). -/
  byteOrder : ByteOrder
  /-- `RESET_PC` (70_reset_and_hazards.md R221, D7). -/
  resetPc : Word
  /-- `instr(pc)`, the instruction words the input collaborator supplies, by address (10_state.md R26, D7, D17). -/
  program : List (Nat × Word)
  deriving DecidableEq, Repr

end Sys2Proof
end

