-- ==== Sys2Proof/Machine/Defaults.lean ====
section
/-! DEFINITION. The values of the parameters at `State.reset`. The condition table and ANDN's operand are the spec's
own defaults (00_scope.md R7); the rest the spec leaves open, and each is a DESIGN CHOICE of the model (log entries 4 to
8). No statement about every state rests on any of them. -/

namespace Sys2Proof.Machine

/-- The default `cond_holds`, the truth values of 40_condition.md R102, codes 0 (E) to 14 (F); the leftmost bit is the
flag state `NZCO = 0000`. -/
def defaultCondTable : Vector (BitVec 16) 15 :=
  #v[ 0b0000111100001111#16,   -- E
      0b1111000011110000#16,   -- NE
      0b0011001100110011#16,   -- GEU
      0b1100110011001100#16,   -- LU
      0b0000000011111111#16,   -- N
      0b1111111100000000#16,   -- NN
      0b0101010101010101#16,   -- O
      0b1010101010101010#16,   -- NO
      0b0011000000110000#16,   -- GU
      0b1100111111001111#16,   -- LEU
      0b1010101001010101#16,   -- GE
      0b0101010110101010#16,   -- L
      0b1010000001010000#16,   -- G
      0b0101111110101111#16,   -- LE
      0b0000000000000000#16 ]  -- F

/-- DESIGN CHOICE (log entry 4), unsafe: every word address is backed by memory. The spec leaves `mem_valid` open. -/
def defaultMemMap : List Region := [⟨0, 0x40000000⟩]

/-- The parameters at reset. `byteOrder`, `resetPc`, `program`, `memRefuses`: DESIGN CHOICE (log entries 5 to 8). -/
def defaultConfig : Config where
  condTable := defaultCondTable
  andnComplements := .b
  memMap := defaultMemMap
  memRefuses := []
  byteOrder := .little
  resetPc := 0#32
  program := []

end Sys2Proof.Machine
end

