-- ==== Sys2Proof/Machine/State.lean ====
section
/-! DEFINITION. The architectural state of 10_state.md R20 as plain data, the parameters beside it, and the state after
reset (R35). -/

namespace Sys2Proof.Machine

/-- The four flags, in the document's order (10_state.md R27). -/
structure Flags where
  n : Bool
  z : Bool
  c : Bool
  o : Bool
  deriving DecidableEq, Repr

/-- The two synchronous exceptions (60_exceptions.md R190). -/
inductive Cause where
  | illegalInstruction   -- info: the instruction word
  | memoryFault          -- info: the effective address
  deriving DecidableEq, Repr

/-- A raised exception: its cause and 32 bits of information (10_state.md R31, 60_exceptions.md R190). -/
structure FaultRecord where
  cause : Cause
  info  : Word
  deriving DecidableEq, Repr

/-- Data memory: (address, byte) pairs, listing only what differs from what an unlisted address reads as. -/
abbrev Memory := List Host.Cell

/-- Why a step stops with a fault: never. Both exceptions of 60_exceptions.md R190 are taken as next states that record
the cause in `State.fault` (R196), and a stuck step changes nothing (R49), so this type has no constructor, nobody
raises it, and that is safe (log entries 13 and 14). -/
inductive Fault where
  deriving DecidableEq, Repr

/-- Why an instruction is refused. -/
inductive Refusal where
  /-- Raised by `exec` for an instruction that has no meaning yet; no arm does so. Safe: nothing is claimed of it. -/
  | notModelled (mnemonic : String)
  deriving DecidableEq, Repr

/-- The machine: the architectural state of 10_state.md R20, and the parameters `cfg` (log entry 1). -/
structure State where
  /-- x[0] to x[15] (10_state.md R21 to R25). -/
  regs : Vector Word 16
  /-- N, Z, C, O (R27). -/
  flags : Flags
  /-- Data memory (20_memory.md R40). -/
  mem : Memory
  /-- The input bytes supplied and not yet consumed, next byte first (10_state.md R32). -/
  input : List Byte
  /-- The output bytes emitted, in order (R32). -/
  output : List Byte
  /-- The halted bit (R30). -/
  halted : Bool
  /-- None, or the raised exception (R31). -/
  fault : Option FaultRecord
  /-- The sequencer's program counter (R26). -/
  pc : Word
  /-- The open parameters of 00_scope.md R7, which no step writes (log entry 1). -/
  cfg : Config
  deriving DecidableEq, Repr

/-- What a step or an instruction answers. -/
abbrev Result := Host.Outcome State Fault Refusal

/-- The machine right after reset (10_state.md R35): output empty, not halted, no fault, pc at RESET_PC. Registers,
flags and memory the spec leaves unspecified: DESIGN CHOICE all zero (log entries 9 to 11). No input byte has been
supplied yet: DESIGN CHOICE (log entry 12). -/
def State.reset : State where
  regs := Vector.replicate 16 0#32
  flags := ⟨false, false, false, false⟩
  mem := []
  input := []
  output := []
  halted := false
  fault := none
  pc := defaultConfig.resetPc
  cfg := defaultConfig

end Sys2Proof.Machine
end

