-- ==== Sys2Proof/Machine/Ops.lean ====
section
/-! DEFINITION. The primitives of 00_scope.md R10 over the state: registers, flags, memory, the byte streams, taking an
exception, the sequencer's fetch and advance, reset. Every meaning is written over these. -/

namespace Sys2Proof.Machine

/-! ## Registers, flags, pc -/

/-- `x[i]`, the document's `get_reg(i)` (10_state.md R21). No register is hardwired (R23). -/
def State.reg (s : State) (r : Reg) : Word := s.regs.get r.toFin

/-- `x[i] <- v`, the document's `set_reg(i, v)`: all 32 bits (10_state.md R21). -/
def State.setReg (s : State) (r : Reg) (v : Word) : State := { s with regs := s.regs.set r.toNat v r.isLt }

/-- `flags <- (n, z, c, o)`, all four at once (10_state.md R27). -/
def State.commitFlags (s : State) (f : Flags) : State := { s with flags := f }

/-- The sequencer's advance after a completed step: `pc + 4` modulo 2^32 (10_state.md R26). -/
def State.advance (s : State) : State := { s with pc := s.pc + pcStep }

/-- The block can take a step: neither halted nor faulted (00_scope.md R12). -/
def State.running (s : State) : Bool := !s.halted && s.fault.isNone

/-! ## Lists of (address, value) pairs in rising order -/

/-- The value listed at an address. -/
def lookupCell {α : Type} (a : Nat) : List (Nat × α) → Option α
  | [] => none
  | (k, v) :: rest => if a = k then some v else lookupCell a rest

/-- List a value at an address, keeping a rising list rising. -/
def insertCell {α : Type} (a : Nat) (v : α) : List (Nat × α) → List (Nat × α)
  | [] => [(a, v)]
  | (k, x) :: rest =>
    if a < k then (a, v) :: (k, x) :: rest
    else if a = k then (a, v) :: rest
    else (k, x) :: insertCell a v rest

/-- List nothing at an address. -/
def eraseCell {α : Type} (a : Nat) : List (Nat × α) → List (Nat × α)
  | [] => []
  | (k, x) :: rest => if a = k then eraseCell a rest else (k, x) :: eraseCell a rest

/-! ## Memory -/

/-- What a byte of memory that nothing has written reads as. DESIGN CHOICE (log entry 11), unsafe: the spec leaves the
initial contents unspecified, stable until written (10_state.md R35). -/
def unwrittenByte : Byte := 0#8

/-- The canonical form: addresses strictly rising and below 2^32, no entry equal to what an unlisted address reads
as. -/
abbrev Memory.wf (m : Memory) : Prop :=
  m.Pairwise (fun x y => x.1 < y.1) ∧ ∀ c ∈ m, c.1 < 2 ^ 32 ∧ c.2 ≠ unwrittenByte

/-- One byte of memory. -/
def Memory.readByte (m : Memory) (a : Nat) : Byte := (lookupCell a m).getD unwrittenByte

/-- Store one byte, keeping the canonical form. -/
def Memory.writeByte (m : Memory) (a : Nat) (b : Byte) : Memory :=
  if b = unwrittenByte then eraseCell a m else insertCell a b m

/-- The byte of a word that lies `i` bytes above the word's address (20_memory.md R46, `BYTE_ORDER`). -/
def wordByte (o : ByteOrder) (v : Word) (i : Nat) : Byte :=
  match o with
  | .little => v.extractLsb' (8 * i) 8
  | .big => v.extractLsb' (8 * (3 - i)) 8

/-- The word at byte address `a` (20_memory.md R41, R43). -/
def Memory.readWord (o : ByteOrder) (m : Memory) (a : Nat) : Word :=
  match o with
  | .little => m.readByte (a + 3) ++ m.readByte (a + 2) ++ m.readByte (a + 1) ++ m.readByte a
  | .big => m.readByte a ++ m.readByte (a + 1) ++ m.readByte (a + 2) ++ m.readByte (a + 3)

/-- The word at byte address `a` becomes `v` (20_memory.md R41, R43). -/
def Memory.writeWord (o : ByteOrder) (m : Memory) (a : Nat) (v : Word) : Memory :=
  (((m.writeByte a (wordByte o v 0)).writeByte (a + 1) (wordByte o v 1)).writeByte (a + 2) (wordByte o v 2)).writeByte
    (a + 3) (wordByte o v 3)

/-- `addr[1:0] = 0b00` (20_memory.md R44, R45). -/
def aligned (addr : Word) : Bool := addr.extractLsb' 0 2 == 0#2

/-- `mem_valid(addr)` (20_memory.md R48). -/
def memValid (cfg : Config) (addr : Word) : Bool :=
  cfg.memMap.any fun r => decide (r.base ≤ addr.toNat) && decide (addr.toNat < r.base + 4 * r.words)

/-- The memory collaborator refuses this access for its own reason (60_exceptions.md R190, D11). -/
def memRefused (cfg : Config) (op : MemOp) (addr : Word) : Bool := cfg.memRefuses.contains (op, addr)

/-- A word access goes through: aligned, not the port, backed by memory (20_memory.md R44), and not refused by the
collaborator (60_exceptions.md R190). -/
def memOk (cfg : Config) (op : MemOp) (addr : Word) : Bool :=
  aligned addr && addr != ioAddr && memValid cfg addr && !memRefused cfg op addr

/-- `MemRead(addr, 4)` (20_memory.md R44): the word, or none where MemoryFault(addr) is to be raised. -/
def memRead (s : State) (addr : Word) : Option Word :=
  if memOk s.cfg .read addr then some (s.mem.readWord s.cfg.byteOrder addr.toNat) else none

/-- The state with the word `v` stored at `addr`. -/
def State.storeWord (s : State) (addr v : Word) : State :=
  { s with mem := s.mem.writeWord s.cfg.byteOrder addr.toNat v }

/-- `MemWrite(addr, 4, v)` (20_memory.md R44): the state after the store, or none where MemoryFault(addr) is to be
raised. -/
def memWrite (s : State) (addr v : Word) : Option State :=
  if memOk s.cfg .write addr then some (s.storeWord addr v) else none

/-! ## The byte streams -/

/-- The state whose unconsumed input bytes are these. -/
def State.withInput (s : State) (bytes : List Byte) : State := { s with input := bytes }

/-- `IoIn()` (20_memory.md R49): the next input byte and the state with it consumed, or none while the stream is
empty. -/
def ioIn (s : State) : Option (Byte × State) :=
  match s.input with
  | [] => none
  | b :: rest => some (b, s.withInput rest)

/-- `IoOut(b)` (20_memory.md R49): append one byte; always succeeds. -/
def State.emit (s : State) (b : Byte) : State := { s with output := s.output ++ [b] }

/-! ## Exceptions, halt, no step -/

/-- The cause's code (60_exceptions.md R190). -/
def Cause.code : Cause → BitVec 2
  | .illegalInstruction => 1#2
  | .memoryFault => 2#2

/-- The state with an exception recorded. -/
def State.recordFault (s : State) (cause : Cause) (info : Word) : State := { s with fault := some ⟨cause, info⟩ }

/-- Taking an exception (60_exceptions.md R195, R196): `fault` becomes the cause with its information, nothing else is
written, the pc stays at the faulting instruction. There is no vector, no saved register and no mode. -/
def raise (cause : Cause) (info : Word) (s : State) : Result := .next (s.recordFault cause info)

/-- `halted <- 1` (45_system.md R180); the sequencer does not advance past the HALT (10_state.md R26). -/
def State.setHalted (s : State) : State := { s with halted := true }

/-- No step: nothing changes, the pc included (10_state.md R26, 20_memory.md R49; log entry 13). -/
def noStep (s : State) : Result := .next s

/-- The instruction's effects are written and the sequencer advances (10_state.md R26). -/
def complete (s : State) : Result := .next s.advance

/-! ## The sequencer's supply of words -/

/-- `instr(pc)`: the word the input collaborator supplies at `pc`, none where it has none (10_state.md R26). It is no
read of data memory (20_memory.md R54). -/
def fetch (s : State) : Option Word := lookupCell s.pc.toNat s.cfg.program

/-- The input collaborator's supply with the word `w` at `pc`. -/
def State.supplyWord (s : State) (w : Word) : State :=
  { s with cfg := { s.cfg with program := insertCell s.pc.toNat w s.cfg.program } }

/-! ## Reset and launch: the way out of a fault, there is no return from one (60_exceptions.md R197) -/

/-- The block's reset (70_reset_and_hazards.md R220): `halted` and `fault` are the only state it writes. -/
def State.blockReset (s : State) : State := { s with halted := false, fault := none }

/-- The sequencer starts at RESET_PC (70_reset_and_hazards.md R221, 10_state.md R35). -/
def State.startSequencer (s : State) : State := { s with pc := s.cfg.resetPc }

/-- What the environment sets up for a run (70_reset_and_hazards.md R228): reset, pc at RESET_PC, output empty, the
given input sequence; registers, flags and memory as they are. -/
def State.launch (s : State) (bytes : List Byte) : State :=
  { s.blockReset.startSequencer with input := bytes, output := [] }

/-- The environment appends input bytes, at any time between steps (70_reset_and_hazards.md R227). -/
def State.supplyInput (s : State) (bytes : List Byte) : State := { s with input := s.input ++ bytes }

end Sys2Proof.Machine
end

