-- ==== Sys2Proof/Machine/Flags.lean ====
section
/-! DEFINITION. The ALU with its flag computation (41_arithmetic.md R121 to R130) and the condition evaluator with its
gating of every instruction (40_condition.md R101 to R103). -/

namespace Sys2Proof.Machine

/-! ## The ALU -/

/-- What an ALU function delivers (41_arithmetic.md R130). -/
structure AluResult where
  result   : Word
  carry    : Bool
  overflow : Bool
  deriving DecidableEq, Repr

/-- `rotl32(v, n)`, 0 ≤ n ≤ 31 (00_scope.md R10). -/
def rotl32 (v : Word) (n : Nat) : Word := (v <<< n) ||| (v >>> (32 - n))

/-- OR (41_arithmetic.md R121). -/
def aluOr (a b : Word) : AluResult := ⟨a ||| b, false, false⟩

/-- XOR (R122). -/
def aluXor (a b : Word) : AluResult := ⟨a ^^^ b, false, false⟩

/-- AND (R123). -/
def aluAnd (a b : Word) : AluResult := ⟨a &&& b, false, false⟩

/-- ANDN (R124): the parameter `ANDN_COMPLEMENTS` says which operand is complemented. -/
def aluAndn (which : AndnOperand) (a b : Word) : AluResult :=
  match which with
  | .b => ⟨a &&& ~~~b, false, false⟩
  | .a => ⟨~~~a &&& b, false, false⟩

/-- ROL (R125): `b` rotated left by `a[4:0]`; carry the result's low bit, overflow when the sign bit changed. -/
def aluRol (a b : Word) : AluResult :=
  let r := rotl32 b (a.extractLsb' 0 5).toNat
  ⟨r, r[0], b[31] != r[31]⟩

/-- The 33-bit sum of ADD and SUB, as result, carry (bit 32) and overflow (equal operand signs, another result
sign). -/
def addCarry (a b : Word) (carryIn : BitVec 33) : AluResult :=
  let sum : BitVec 33 := a.zeroExtend 33 + b.zeroExtend 33 + carryIn
  let r : Word := sum.extractLsb' 0 32
  ⟨r, sum[32], a[31] == b[31] && r[31] != a[31]⟩

/-- ADD (R126). -/
def aluAdd (a b : Word) : AluResult := addCarry a b 0#33

/-- SUB (R127): `a + (~b) + 1`. -/
def aluSub (a b : Word) : AluResult := addCarry a (~~~b) 1#33

/-- The flags of an ALU result (R129): N the result's sign bit, Z whether it is zero, C and O per opcode. -/
def AluResult.flags (x : AluResult) : Flags := ⟨x.result[31], x.result == 0#32, x.carry, x.overflow⟩

/-! ## The condition evaluator -/

/-- The flags as the number `NZCO` that the table of 40_condition.md R102 has as its columns. -/
def Flags.nzco (f : Flags) : BitVec 4 :=
  BitVec.ofBool f.n ++ BitVec.ofBool f.z ++ BitVec.ofBool f.c ++ BitVec.ofBool f.o

/-- `cond_holds(code, flags)` (40_condition.md R101, R102): the table's entry, and code 15 always (R100). -/
def condHolds (table : Vector (BitVec 16) 15) (c : Cond) (f : Flags) : Bool :=
  if h : c.code.toNat < 15 then table[c.code.toNat].getMsbD f.nzco.toNat else true

/-- `cond_pass`: the condition against the flags as they stand before the instruction (40_condition.md R101). -/
def condPass (c : Cond) (s : State) : Bool := condHolds s.cfg.condTable c s.flags

/-- The gating of 40_condition.md R103: the instruction's effect where its condition passes; where it fails, nothing
but the sequencer's advance. -/
def gated (c : Cond) (s : State) (effect : State → Result) : Result :=
  if condPass c s then effect s else complete s

end Sys2Proof.Machine
end

