-- ==== Sys2Proof/Machine/Operands.lean ====
section
/-! DEFINITION. Every operand form of 30_encoding.md R79, and the shared shapes of the meanings: an Arithmetic
instruction, a load into a register, a store. -/

namespace Sys2Proof.Machine

/-! ## Operand forms -/

/-- Operand A: `x[regA]`, or the sign-extended immediate (41_arithmetic.md R120). -/
def operandA (f : ArithFields) (s : State) : Word := if f.usesReg then s.reg f.regA else f.imm

/-- Operand B: always `x[regB]` (41_arithmetic.md R120). -/
def operandB (f : ArithFields) (s : State) : Word := s.reg f.regB

/-- The effective address of READ and WRITE: base plus offset, modulo 2^32 (20_memory.md R42, 43_memory_access.md
R157). -/
def effectiveAddress (base : Reg) (offset : Word) (s : State) : Word := s.reg base + offset

/-- Where PUSH stores: `x[14] − 4`, modulo 2^32 (44_stack.md R170). -/
def pushAddress (s : State) : Word := s.reg spReg - stackStep

/-- Where POP loads from: `x[14]` (44_stack.md R171). -/
def popAddress (s : State) : Word := s.reg spReg

/-! ## Shared shapes -/

/-- The state after an Arithmetic instruction's result is stored and, with setFlags, its flags (41_arithmetic.md R120,
R129). -/
def storeResult (f : ArithFields) (x : AluResult) (s : State) : State :=
  if f.setFlags then (s.setReg f.regD x.result).commitFlags x.flags else s.setReg f.regD x.result

/-- An Arithmetic instruction over its ALU function (41_arithmetic.md R120): operands read, result stored, flags
written when setFlags. -/
def execAlu (alu : Word → Word → AluResult) (f : ArithFields) (c : Cond) (s : State) : Result :=
  gated c s fun s => complete (storeResult f (alu (operandA f s) (operandB f s)) s)

/-- Read the word at `addr` and go on with it, or raise MemoryFault(addr) (20_memory.md R44). -/
def withLoaded (addr : Word) (s : State) (use : Word → State) : Result :=
  match memRead s addr with
  | some v => complete (use v)
  | none => raise .memoryFault addr s

/-- Store `v` at `addr` and go on from the state after it, or raise MemoryFault(addr) (20_memory.md R44). -/
def withStored (addr v : Word) (s : State) (use : State → State) : Result :=
  match memWrite s addr v with
  | some s' => complete (use s')
  | none => raise .memoryFault addr s

end Sys2Proof.Machine
end

