-- ==== Sys2Proof/Machine/Arithmetic.lean ====
section
/-! DEFINITION. The Arithmetic class (41_arithmetic.md): the seven ALU functions and the unassigned opcode 4. -/

namespace Sys2Proof.Machine

/-- OR (41_arithmetic.md R121). -/
def execOr (f : ArithFields) (c : Cond) (s : State) : Result := execAlu aluOr f c s

/-- XOR (41_arithmetic.md R122). -/
def execXor (f : ArithFields) (c : Cond) (s : State) : Result := execAlu aluXor f c s

/-- AND (41_arithmetic.md R123). -/
def execAnd (f : ArithFields) (c : Cond) (s : State) : Result := execAlu aluAnd f c s

/-- ANDN (41_arithmetic.md R124), by the parameter `ANDN_COMPLEMENTS`. -/
def execAndn (f : ArithFields) (c : Cond) (s : State) : Result := execAlu (aluAndn s.cfg.andnComplements) f c s

/-- `???`, opcode 4 (41_arithmetic.md R128): raises IllegalInstruction with the instruction word, whatever the
condition. All 32 bits of a format A word are fields (30_encoding.md R63), so the word is the fields encoded again (log
entry 15). -/
def execUnassigned (f : ArithFields) (c : Cond) (s : State) : Result :=
  raise .illegalInstruction (encodeArith 4 f c) s

/-- ROL (41_arithmetic.md R125). -/
def execRol (f : ArithFields) (c : Cond) (s : State) : Result := execAlu aluRol f c s

/-- ADD (41_arithmetic.md R126). -/
def execAdd (f : ArithFields) (c : Cond) (s : State) : Result := execAlu aluAdd f c s

/-- SUB (41_arithmetic.md R127). -/
def execSub (f : ArithFields) (c : Cond) (s : State) : Result := execAlu aluSub f c s

end Sys2Proof.Machine
end

