-- ==== Sys2Proof/Machine/LoadHigh.lean ====
section
/-! DEFINITION. The LoadHigh class (42_loadhigh.md). -/

namespace Sys2Proof.Machine

/-- LDHI (42_loadhigh.md R150): `x[regD] <- constant << 10`. -/
def execLdhi (constant : Word) (d : Reg) (c : Cond) (s : State) : Result :=
  gated c s fun s => complete (s.setReg d (constant <<< 10))

end Sys2Proof.Machine
end

