-- ==== Sys2Proof/Machine/MemoryAccess.lean ====
section
/-! DEFINITION. The MemoryRead and MemoryWrite classes (43_memory_access.md). Both test for the port before any memory
check (20_memory.md R44, R47). -/

namespace Sys2Proof.Machine

/-- A READ of the port (43_memory_access.md R155, 20_memory.md R49): one input byte, zero-extended; no step while the
stream is empty. -/
def readPort (d : Reg) (s : State) : Result :=
  match ioIn s with
  | some (b, s') => complete (s'.setReg d (b.zeroExtend 32))
  | none => noStep s

/-- READ (43_memory_access.md R155). -/
def execRead (offset : Word) (a d : Reg) (c : Cond) (s : State) : Result :=
  gated c s fun s =>
    if effectiveAddress a offset s = ioAddr then readPort d s
    else withLoaded (effectiveAddress a offset s) s fun v => s.setReg d v

/-- WRITE (43_memory_access.md R156). -/
def execWrite (offset : Word) (a b : Reg) (c : Cond) (s : State) : Result :=
  gated c s fun s =>
    if effectiveAddress a offset s = ioAddr then complete (s.emit ((s.reg b).extractLsb' 0 8))
    else withStored (effectiveAddress a offset s) (s.reg b) s fun s' => s'

end Sys2Proof.Machine
end

