-- ==== Sys2Proof/Machine/Stack.lean ====
section
/-! DEFINITION. The Push and Pop classes (44_stack.md). Neither performs I/O: at the port address both raise
MemoryFault (20_memory.md R47). -/

namespace Sys2Proof.Machine

/-- PUSH (44_stack.md R170): the value is read before the stack pointer moves. -/
def execPush (a : Reg) (c : Cond) (s : State) : Result :=
  gated c s fun s => withStored (pushAddress s) (s.reg a) s fun s' => s'.setReg spReg (pushAddress s)

/-- POP (44_stack.md R171): the destination is written first, then `x[14] <- x[14] + 4` on the state so far. -/
def execPop (d : Reg) (c : Cond) (s : State) : Result :=
  gated c s fun s =>
    withLoaded (popAddress s) s fun v => (s.setReg d v).setReg spReg ((s.setReg d v).reg spReg + stackStep)

end Sys2Proof.Machine
end

