-- ==== Sys2Proof/Machine/System.lean ====
section
/-! DEFINITION. The Halt and NoOp classes (45_system.md). -/

namespace Sys2Proof.Machine

/-- HALT (45_system.md R180): `halted <- 1`; the pc stays at the HALT. -/
def execHalt (c : Cond) (s : State) : Result := gated c s fun s => .next s.setHalted

/-- NoOp (45_system.md R182): no effect. No word decodes to it (30_encoding.md R74), so no arm of `exec` calls this (log
entry 18). -/
def execNoOp (c : Cond) (s : State) : Result := gated c s complete

end Sys2Proof.Machine
end

