-- ==== Sys2Proof/Machine/Dispatch.lean ====
section
/-! DEFINITION. One arm per instruction. -/

namespace Sys2Proof.Machine

def exec (i : Instr) (s : State) : Host.Outcome State Fault Refusal :=
  match i with
  | .or f c => Sys2Proof.Machine.execOr f c s
  | .xor f c => Sys2Proof.Machine.execXor f c s
  | .and f c => Sys2Proof.Machine.execAnd f c s
  | .andn f c => Sys2Proof.Machine.execAndn f c s
  | .unassigned f c => Sys2Proof.Machine.execUnassigned f c s
  | .rol f c => Sys2Proof.Machine.execRol f c s
  | .add f c => Sys2Proof.Machine.execAdd f c s
  | .sub f c => Sys2Proof.Machine.execSub f c s
  | .ldhi k d c => Sys2Proof.Machine.execLdhi k d c s
  | .read off a d c => Sys2Proof.Machine.execRead off a d c s
  | .write off a b c => Sys2Proof.Machine.execWrite off a b c s
  | .push a c => Sys2Proof.Machine.execPush a c s
  | .pop d c => Sys2Proof.Machine.execPop d c s
  | .halt c => Sys2Proof.Machine.execHalt c s

end Sys2Proof.Machine
end

