-- ==== Sys2Proof/Machine/Step.lean ====
section
/-! DEFINITION. One step of the block and its sequencer (00_scope.md R12, 10_state.md R26). -/

namespace Sys2Proof.Machine

/-- One step: none while halted or faulted (45_system.md R181, 60_exceptions.md R196), none while the input
collaborator has no word at the pc (10_state.md R26), else the decoded word's execution. "No step" changes nothing (log
entry 13). -/
def step (s : State) : Host.Outcome State Fault Refusal :=
  if s.running then
    match fetch s with
    | some w => exec (decode w) s
    | none => noStep s
  else noStep s

/-- `s` with a word supplied as the instruction at the pc, given as the opcode table numbers its bits (log entry 8). -/
def State.withFetchWord (s : State) (nbits w : Nat) : State :=
  match tableWord nbits w with
  | some word => s.supplyWord word
  | none => s

end Sys2Proof.Machine
end

