-- ==== Sys2Proof/Machine/Ports.lean ====
section
/-! DEFINITION. The block's outputs of 10_state.md R34 that are no primitive of 00_scope.md R10: the decoder's fields,
`cond_pass`, the halt and fault outputs. They are functions of the presented word and the state (R33, R35). A port that
the class of the word does not drive is `none` (log entry 21). -/

namespace Sys2Proof.Machine

/-- The eight classes of 30_encoding.md R61; NoOp is never the result of decoding (R74). -/
inductive InstrClass where
  | arithmetic | loadHigh | memoryRead | memoryWrite | push | pop | halt | noOp
  deriving DecidableEq, Repr

/-- `dec_class`'s number of a class (30_encoding.md R61). -/
def InstrClass.number : InstrClass → BitVec 3
  | .arithmetic => 0#3
  | .loadHigh => 1#3
  | .memoryRead => 2#3
  | .memoryWrite => 3#3
  | .push => 4#3
  | .pop => 5#3
  | .halt => 6#3
  | .noOp => 7#3

/-- The class of an instruction (30_encoding.md R61). -/
def classOf : Instr → InstrClass
  | .or _ _ | .xor _ _ | .and _ _ | .andn _ _ | .unassigned _ _ | .rol _ _ | .add _ _ | .sub _ _ => .arithmetic
  | .ldhi _ _ _ => .loadHigh
  | .read _ _ _ _ => .memoryRead
  | .write _ _ _ _ => .memoryWrite
  | .push _ _ => .push
  | .pop _ _ => .pop
  | .halt _ => .halt

/-- The Arithmetic opcode of an instruction (30_encoding.md R64). -/
def opcodeOf : Instr → Option (BitVec 3)
  | .or _ _ => some 0#3
  | .xor _ _ => some 1#3
  | .and _ _ => some 2#3
  | .andn _ _ => some 3#3
  | .unassigned _ _ => some 4#3
  | .rol _ _ => some 5#3
  | .add _ _ => some 6#3
  | .sub _ _ => some 7#3
  | .ldhi _ _ _ | .read _ _ _ _ | .write _ _ _ _ | .push _ _ | .pop _ _ | .halt _ => none

/-- The `dec_*` outputs (10_state.md R34). -/
structure DecodePorts where
  decClass    : BitVec 3
  decOpcode   : Option (BitVec 3)
  decSetFlags : Option Bool
  decUsesReg  : Option Bool
  decImm      : Option Word
  decRegA     : Option Reg
  decRegB     : Option Reg
  decRegD     : Option Reg
  decCond     : BitVec 4
  decIllegal  : Bool
  deriving DecidableEq, Repr

/-- `dec_imm`: the sign-extended immediate or offset; for LoadHigh the zero-extended constant (10_state.md R34). -/
def immPort : Instr → Option Word
  | .or f _ | .xor f _ | .and f _ | .andn f _ | .unassigned f _ | .rol f _ | .add f _ | .sub f _ => some f.imm
  | .ldhi k _ _ => some k
  | .read off _ _ _ => some off
  | .write off _ _ _ => some off
  | .push _ _ | .pop _ _ | .halt _ => none

/-- `dec_rega` (10_state.md R34). -/
def regAPort : Instr → Option Reg
  | .or f _ | .xor f _ | .and f _ | .andn f _ | .unassigned f _ | .rol f _ | .add f _ | .sub f _ => some f.regA
  | .read _ a _ _ => some a
  | .write _ a _ _ => some a
  | .push a _ => some a
  | .ldhi _ _ _ | .pop _ _ | .halt _ => none

/-- `dec_regb` (10_state.md R34). -/
def regBPort : Instr → Option Reg
  | .or f _ | .xor f _ | .and f _ | .andn f _ | .unassigned f _ | .rol f _ | .add f _ | .sub f _ => some f.regB
  | .write _ _ b _ => some b
  | .ldhi _ _ _ | .read _ _ _ _ | .push _ _ | .pop _ _ | .halt _ => none

/-- `dec_regd` (10_state.md R34). -/
def regDPort : Instr → Option Reg
  | .or f _ | .xor f _ | .and f _ | .andn f _ | .unassigned f _ | .rol f _ | .add f _ | .sub f _ => some f.regD
  | .ldhi _ d _ => some d
  | .read _ _ d _ => some d
  | .pop d _ => some d
  | .write _ _ _ _ | .push _ _ | .halt _ => none

/-- The decoder's outputs for a presented word; `dec_illegal` is 1 exactly for Arithmetic opcode 4 (30_encoding.md
R75). -/
def decodePorts (w : Word) : DecodePorts where
  decClass := (classOf (decode w)).number
  decOpcode := opcodeOf (decode w)
  decSetFlags := (decode w).arithFields?.map (·.setFlags)
  decUsesReg := (decode w).arithFields?.map (·.usesReg)
  decImm := immPort (decode w)
  decRegA := regAPort (decode w)
  decRegB := regBPort (decode w)
  decRegD := regDPort (decode w)
  decCond := (decode w).cond.code
  decIllegal := opcodeOf (decode w) == some 4#3

/-- `cond_pass` for a presented word (10_state.md R34, 40_condition.md R101). -/
def condPassPort (w : Word) (s : State) : Bool := condPass (decode w).cond s

/-- `fault_valid` (60_exceptions.md R196). -/
def faultValid (s : State) : Bool := s.fault.isSome

/-- `fault_cause`: the code of the recorded cause, 0 for no fault (60_exceptions.md R190). -/
def faultCause (s : State) : BitVec 2 := (s.fault.map (·.cause.code)).getD 0#2

/-- `fault_info`, driven while a fault is recorded (60_exceptions.md R190, R196). -/
def faultInfo (s : State) : Option Word := s.fault.map (·.info)

end Sys2Proof.Machine
end

