-- ==== Sys2Proof/Machine/Render.lean ====
section
/-! DEFINITION. The text form of an instruction (30_encoding.md R84 to R91). The renderer is no part of the hardware
block; the spec gives it as the assembler syntax. -/

namespace Sys2Proof.Machine

/-- The condition names (30_encoding.md R85). -/
def condName : Cond → String
  | .e => "E"
  | .ne => "NE"
  | .geu => "GEU"
  | .lu => "LU"
  | .n => "N"
  | .nn => "NN"
  | .o => "O"
  | .no => "NO"
  | .gu => "GU"
  | .leu => "LEU"
  | .ge => "GE"
  | .l => "L"
  | .g => "G"
  | .le => "LE"
  | .f => "F"
  | .t => "T"

/-- The condition's suffix; none for code 15 (30_encoding.md R84). -/
def condSuffix (c : Cond) : String := if c = .t then "" else "." ++ condName c

/-- A hexadecimal digit, lower case (30_encoding.md R88). -/
def hexDigit (d : BitVec 4) : Char :=
  if d.toNat < 10 then Char.ofNat (48 + d.toNat) else Char.ofNat (87 + d.toNat)

/-- The eight hexadecimal digits of a word, most significant first. -/
def hexDigits (v : Word) : List Char :=
  [7, 6, 5, 4, 3, 2, 1, 0].map fun i => hexDigit (v.extractLsb' (4 * i) 4)

/-- `0x` and the digits without leading zeros (30_encoding.md R88). -/
def hexText (v : Word) : String :=
  if v = 0#32 then "0x0" else "0x" ++ String.ofList ((hexDigits v).dropWhile (· == '0'))

/-- `R0` to `R15`, in decimal (30_encoding.md R88). -/
def regText (r : Reg) : String :=
  if r.toNat < 10 then "R" ++ String.ofList [Char.ofNat (48 + r.toNat)]
  else "R1" ++ String.ofList [Char.ofNat (38 + r.toNat)]

/-- The memory operand of READ and WRITE (30_encoding.md R86): "regA zero" is the index 0. -/
def memoryOperandText (offset : Word) (a : Reg) : String :=
  if offset = 0#32 then "[" ++ regText a ++ "]"
  else if a = 0#4 then "[" ++ hexText offset ++ "]"
  else "[" ++ regText a ++ " + " ++ hexText offset ++ "]"

/-- The Arithmetic first operand: the register or the immediate (30_encoding.md R88). -/
def operandAText (f : ArithFields) : String := if f.usesReg then regText f.regA else hexText f.imm

/-- The operand list of an instruction (30_encoding.md R88). -/
def operandTexts : Instr → List String
  | .or f _ | .xor f _ | .and f _ | .andn f _ | .unassigned f _ | .rol f _ | .add f _ | .sub f _ =>
      [operandAText f, regText f.regB, regText f.regD]
  | .ldhi k d _ => [hexText (k <<< 10), regText d]
  | .read off a d _ => [regText d, memoryOperandText off a]
  | .write off a b _ => [regText b, memoryOperandText off a]
  | .push a _ => [regText a]
  | .pop d _ => [regText d]
  | .halt _ => []

/-- The letter `f` of an Arithmetic instruction with setFlags (30_encoding.md R84). -/
def flagLetter (i : Instr) : String :=
  match i.arithFields? with
  | some f => if f.setFlags then "f" else ""
  | none => ""

/-- The mnemonic token (30_encoding.md R84). -/
def mnemonicToken (i : Instr) : String := i.mnemonic ++ flagLetter i ++ condSuffix i.cond

/-- A text padded on its right with spaces to 10 columns (30_encoding.md R84). -/
def padded (t : String) : String := t ++ String.ofList (List.replicate (10 - t.toList.length) ' ')

/-- Texts separated by a comma and a space (30_encoding.md R84). -/
def commaSeparated : List String → String
  | [] => ""
  | [t] => t
  | t :: rest => t ++ ", " ++ commaSeparated rest

/-- One line of assembler text (30_encoding.md R84): an instruction with no operand is the token alone. -/
def render (i : Instr) : String :=
  match operandTexts i with
  | [] => mnemonicToken i
  | t :: rest => padded (mnemonicToken i) ++ commaSeparated (t :: rest)

/-- The text of NoOp (30_encoding.md R87), which no word decodes to. -/
def renderNoOp (c : Cond) : String := "NOP" ++ condSuffix c

end Sys2Proof.Machine
end

