-- ==== Sys2Proof/Machine/Cycle.lean ====
section
/-! DEFINITION. One clock cycle with the block's input pins (10_state.md R34, 70_reset_and_hazards.md R220). -/

namespace Sys2Proof.Machine

/-- The two control pins of a cycle (10_state.md R34). -/
structure Pins where
  rst       : Bool
  wordValid : Bool
  deriving DecidableEq, Repr

/-- One cycle: reset beats a step (60_exceptions.md R199), whatever `word_valid` is (70_reset_and_hazards.md R220), and
the sequencer then starts again at RESET_PC (R221; log entry 17); without reset one step happens when `word_valid` is 1
(10_state.md R34). -/
def cycle (p : Pins) (s : State) : Result :=
  if p.rst then .next s.blockReset.startSequencer
  else if p.wordValid then step s
  else noStep s

end Sys2Proof.Machine
end

