-- ==== Sys2Proof/Safety.lean ====
section
/-! DEFINITION. What a run comes to (70_reset_and_hazards.md R229), the machine's invariant, and the words in which the
statements say what an instruction leaves unchanged. -/

namespace Sys2Proof.Machine

/-! ## What a run comes to -/

/-- The one normal end of a run: halted, no fault (70_reset_and_hazards.md R229). -/
def State.ended (s : State) : Bool := s.halted && s.fault.isNone

/-- A run that faulted: it has no final state (70_reset_and_hazards.md R229). -/
def State.goneWrong (s : State) : Bool := s.fault.isSome

/-- The instruction is a READ of the port, its condition passes and the input stream is empty (20_memory.md R49). -/
def starved (s : State) : Instr → Bool
  | .read off a _ c => condPass c s && effectiveAddress a off s == ioAddr && s.input.isEmpty
  | .or _ _ | .xor _ _ | .and _ _ | .andn _ _ | .unassigned _ _ | .rol _ _ | .add _ _ | .sub _ _ | .ldhi _ _ _
  | .write _ _ _ _ | .push _ _ | .pop _ _ | .halt _ => false

/-- A running machine that is stuck: the input collaborator has no word at the pc, or the word reads the port and no
input byte is there (10_state.md R26, 20_memory.md R49). -/
def State.waiting (s : State) : Bool :=
  s.running &&
    match fetch s with
    | some w => starved s (decode w)
    | none => true

/-! ## The invariant -/

/-- What every step keeps: memory is in its canonical form, the pc is a multiple of 4 (10_state.md R26) and so is
RESET_PC (R35), and the machine is not both halted and faulted (45_system.md R181: a halted block raises no fault). -/
structure Inv (s : State) : Prop where
  memory    : s.mem.wf
  pcAligned : s.pc.toNat % 4 = 0
  resetPc   : s.cfg.resetPc.toNat % 4 = 0
  oneEnd    : ¬ (s.halted = true ∧ s.fault.isSome = true)

/-! ## Frames -/

/-- Every register but the listed ones reads as before. -/
abbrev RegsKept (s t : State) (written : List Reg) : Prop := ∀ r, r ∉ written → t.reg r = s.reg r

/-- Every byte of memory reads as before. -/
abbrev MemKept (s t : State) : Prop := ∀ a, t.mem.readByte a = s.mem.readByte a

/-- Every byte of memory outside the word at `addr` reads as before. -/
abbrev MemKeptOutside (s t : State) (addr : Word) : Prop :=
  ∀ a, (a < addr.toNat ∨ addr.toNat + 4 ≤ a) → t.mem.readByte a = s.mem.readByte a

/-- Neither byte stream moved. -/
abbrev StreamsKept (s t : State) : Prop := t.input = s.input ∧ t.output = s.output

/-- The halted bit, the fault and the parameters are as before. -/
abbrev ControlKept (s t : State) : Prop := t.halted = s.halted ∧ t.fault = s.fault ∧ t.cfg = s.cfg

/-- All that an Arithmetic instruction with this result, carry and overflow does: regD and the flags when setFlags
(41_arithmetic.md R120, R129), and the sequencer's advance (10_state.md R26, the spec's decision D7; that it is part of
`exec` is log entry 16); nothing else changes. -/
structure AluEffect (f : ArithFields) (s t : State) (result : Word) (carry overflow : Bool) : Prop where
  destination : t.reg f.regD = result
  registers   : RegsKept s t [f.regD]
  flagsSet    : f.setFlags = true → t.flags = ⟨result[31], decide (result = 0#32), carry, overflow⟩
  flagsKept   : f.setFlags = false → t.flags = s.flags
  pc          : t.pc = s.pc + 4#32
  memory      : MemKept s t
  streams     : StreamsKept s t
  control     : ControlKept s t

/-- All that a load into register `d` does besides moving the input stream: the register, the sequencer's advance
(log entry 16); nothing else changes. -/
structure RegisterEffect (s t : State) (d : Reg) (v : Word) : Prop where
  destination : t.reg d = v
  registers   : RegsKept s t [d]
  flags       : t.flags = s.flags
  pc          : t.pc = s.pc + 4#32
  memory      : MemKept s t
  output      : t.output = s.output
  control     : ControlKept s t

/-- All that a store of `v` at `addr` does besides the registers in `written`: the word, the sequencer's advance (log
entry 16); nothing else changes, and no byte outside the word. -/
structure StoreEffect (s t : State) (written : List Reg) (addr v : Word) : Prop where
  word      : t.mem.readWord s.cfg.byteOrder addr.toNat = v
  outside   : MemKeptOutside s t addr
  registers : RegsKept s t written
  flags     : t.flags = s.flags
  pc        : t.pc = s.pc + 4#32
  streams   : StreamsKept s t
  control   : ControlKept s t

/-- The registers an instruction may write (10_state.md R24). -/
def regsWritten : Instr → List Reg
  | .or f _ | .xor f _ | .and f _ | .andn f _ | .rol f _ | .add f _ | .sub f _ => [f.regD]
  | .unassigned _ _ => []
  | .ldhi _ d _ => [d]
  | .read _ _ d _ => [d]
  | .write _ _ _ _ => []
  | .push _ _ => [spReg]
  | .pop d _ => [d, spReg]
  | .halt _ => []

/-- The registers an instruction may read (10_state.md R24): regA of an Arithmetic instruction only in its register form
(41_arithmetic.md R133). -/
def regsRead : Instr → List Reg
  | .or f _ | .xor f _ | .and f _ | .andn f _ | .rol f _ | .add f _ | .sub f _ =>
      if f.usesReg then [f.regA, f.regB] else [f.regB]
  | .unassigned _ _ => []
  | .ldhi _ _ _ => []
  | .read _ a _ _ => [a]
  | .write _ a b _ => [a, b]
  | .push a _ => [a, spReg]
  | .pop _ _ => [spReg]
  | .halt _ => []

end Sys2Proof.Machine
end

