-- ==== Sys2Proof/Certificates/Slice0/Obligations.lean ====
section
/-! DEFINITION. The statements for the provers. Each docstring names the rules it is about, and the decisions of the
spec (92_eei_decisions.md) or of the model (the log) it rests on. -/

open Sys2Proof Sys2Proof.Machine

/-! ## Encoding -/

/-- 30_encoding.md R92: decoding a word built from a field assignment gives the assignment back, for every instruction
whose fields its encoding can hold; for a WRITE with any slot value but 14; and no word decodes to anything else. The
offset ranges are an inference the spec marks as its own; which word `encode` picks is log entry 20. -/
def Obligations.DecodeOfEncode : Prop :=
  (∀ i : Instr, i.wellFormed = true → decode (encode i) = i) ∧
  (∀ (off : Word) (a b : Reg) (c : Cond) (slot : BitVec 4), writeOffsetInRange off = true → slot ≠ 14#4 →
    decode (encode (.write off a b c) ||| (slot.zeroExtend 32 <<< 4)) = .write off a b c) ∧
  (∀ w : Word, (decode w).wellFormed = true)

/-- 30_encoding.md R63 and R65: all 32 bits of an Arithmetic or LoadHigh word are fields, so encoding the decoded word
gives the word back. An inference from the two formats, used by log entry 15. -/
def Obligations.FullWordsReencode : Prop :=
  ∀ w : Word, w[31] = false ∨ w[30] = false → encode (decode w) = w

/-- 30_encoding.md R83: there are 18 rows and the first row a word selects decides its instruction, so every word
selects one; apart from the Push-alias row and the WRITE row, of whose pattern it is a subset, no word selects two
rows. That the rows cover all words and are disjoint is an inference the spec marks as its own. -/
def Obligations.DecodeFollowsOpcodeTable : Prop :=
  opcodeTable.length = 18 ∧
  (∀ w : Word, (opcodeRowOf w).map (·.mnemonic) = some (decode w).mnemonic) ∧
  (∀ (w : Word) (i j : Nat) (r q : OpcodeRow), i < j → opcodeTable[i]? = some r → opcodeTable[j]? = some q →
    r.selects w = true → q.selects w = true → i = 10 ∧ j = 11 ∧ r.mnemonic = "PUSH" ∧ q.mnemonic = "WRITE") ∧
  (∀ (w : Word) (r q : OpcodeRow), opcodeTable[10]? = some r → opcodeTable[11]? = some q →
    r.selects w = true → q.selects w = true)

/-- 30_encoding.md R80: two words that differ only in bits their row ignores decode to equal instructions and behave
identically; the encoder writes 0 in every ignored bit, and in the slot of a WRITE. The encoder's zeros are the spec's
decision D20 (log entry 20). -/
def Obligations.IgnoredBitsDoNotMatter : Prop :=
  (∀ (w w' : Word) (r : OpcodeRow), opcodeRowOf w = some r → w &&& r.used = w' &&& r.used →
    decode w' = decode w ∧ ∀ s, exec (decode w') s = exec (decode w) s) ∧
  (∀ (i : Instr) (r : OpcodeRow), opcodeRowOf (encode i) = some r → encode i &&& ~~~r.used = 0#32) ∧
  (∀ (off : Word) (a b : Reg) (c : Cond), (encode (.write off a b c)).extractLsb' 4 4 = 0#4)

/-- 30_encoding.md R70 and 44_stack.md R172: a word of the MemoryWrite shape whose slot is 14 is the Push of `w[15:12]`,
the same value as the Push of selector `0001` with that register and condition, whatever its offset and base bits. -/
def Obligations.PushAliasIsPush : Prop :=
  (∀ w : Word, w &&& 0xC3C000F0#32 = 0xC20000E0#32 → decode w = .push (w.extractLsb' 12 4) (condOf w)) ∧
  (∀ w w' : Word, w &&& 0xC3C000F0#32 = 0xC20000E0#32 → w' &&& 0xC3C00000#32 = 0xC0400000#32 →
    w'.extractLsb' 12 4 = w.extractLsb' 12 4 → w'.extractLsb' 0 4 = w.extractLsb' 0 4 → decode w' = decode w) ∧
  decode 0xC20050EF#32 = .push 5#4 .t ∧ decode 0xC20C57EF#32 = .push 5#4 .t ∧ decode 0xC040500F#32 = .push 5#4 .t

/-- A few words of 95_test_vectors.md part 2.1, one of each class, decode to the instructions they stand for. -/
def Obligations.DecodeKnownWords : Prop :=
  decode 0x3BFF023F#32 = .andn ⟨true, false, 0xFFFFFFFF#32, 0#4, 2#4, 3#4⟩ .t ∧
  decode 0x60010111#32 = .add ⟨false, false, 1#32, 0#4, 1#4, 1#4⟩ .ne ∧
  decode 0x4D55123E#32 = .unassigned ⟨true, true, 0x155#32, 1#4, 2#4, 3#4⟩ .f ∧
  decode 0x848D151F#32 = .ldhi 0x048D15#32 1#4 .t ∧
  decode 0xC0040141#32 = .read 4#32 1#4 4#4 .ne ∧
  decode 0xC204510F#32 = .write 0xFFFFFE04#32 1#4 5#4 .t ∧
  decode 0xC040E00F#32 = .push 14#4 .t ∧
  decode 0xC1000063#32 = .pop 6#4 .lu ∧
  decode 0xC300000F#32 = .halt .t

/-- 30_encoding.md R76: the 10-bit field `w[25:16]` is the Arithmetic immediate and the READ and WRITE offset, read as
two's complement and widened: the field itself when its bit 9 is 0, `0xFFFFFC00 | v` when it is 1; the range is
[−512, 511]; and the document's three examples. -/
def Obligations.ImmediatesAreSignExtended : Prop :=
  (∀ v : BitVec 10, (sext10 v).toInt = v.toInt ∧ -512 ≤ (sext10 v).toInt ∧ (sext10 v).toInt ≤ 511 ∧
    sext10 v = if v[9] then 0xFFFFFC00#32 ||| v.zeroExtend 32 else v.zeroExtend 32) ∧
  (∀ (w : Word) (f : ArithFields), (decode w).arithFields? = some f → f.imm = sext10 (w.extractLsb' 16 10)) ∧
  (∀ (w off : Word) (a d : Reg) (c : Cond), decode w = .read off a d c → off = sext10 (w.extractLsb' 16 10)) ∧
  (∀ (w off : Word) (a b : Reg) (c : Cond), decode w = .write off a b c → off = sext10 (w.extractLsb' 16 10)) ∧
  (sext10 0x3FF#10).toInt = -1 ∧ (sext10 0x200#10).toInt = -512 ∧ (sext10 0x1FF#10).toInt = 511

/-! ## The condition evaluator -/

/-- 40_condition.md R102: code 15 holds for every table and every flag state; the default table, which the machine has
at reset, gives the other fifteen codes the flag expressions of the rule. Rows 0 to 14 are the spec's decision D3 (log
entry 2). -/
def Obligations.ConditionTable : Prop :=
  (∀ (table : Vector (BitVec 16) 15) (f : Flags), condHolds table .t f = true) ∧
  State.reset.cfg.condTable = defaultCondTable ∧
  ∀ (f : Flags) (c : Cond), condHolds defaultCondTable c f =
    match c with
    | .e => f.z
    | .ne => !f.z
    | .geu => f.c
    | .lu => !f.c
    | .n => f.n
    | .nn => !f.n
    | .o => f.o
    | .no => !f.o
    | .gu => f.c && !f.z
    | .leu => !f.c || f.z
    | .ge => f.n == f.o
    | .l => f.n != f.o
    | .g => !f.z && f.n == f.o
    | .le => f.z || f.n != f.o
    | .f => false
    | .t => true

/-- 40_condition.md R105: each odd code is the complement of the even code before it. It is about the default table,
the spec's decision D3 (log entry 2). -/
def Obligations.OddCodesComplementEvenCodes : Prop :=
  ∀ (c : Cond) (f : Flags),
    condHolds defaultCondTable (Cond.ofCode (c.code ^^^ 1#4)) f = !condHolds defaultCondTable c f

/-- 40_condition.md R104: after `SUBf` with operands a and b, under the table of R102, each condition that names a
relation holds exactly when a stands in that relation to b. It rests on the default table, the spec's decision D3 (log
entry 2). -/
def Obligations.ConditionsCompareAfterSub : Prop :=
  ∀ (f : ArithFields) (c : Cond) (s : State), f.setFlags = true → condPass c s = true →
    s.cfg.condTable = defaultCondTable →
    ∃ t, exec (.sub f c) s = .next t ∧
      (condPass .e t = true ↔ operandA f s = operandB f s) ∧
      (condPass .ne t = true ↔ operandA f s ≠ operandB f s) ∧
      (condPass .geu t = true ↔ (operandA f s).toNat ≥ (operandB f s).toNat) ∧
      (condPass .lu t = true ↔ (operandA f s).toNat < (operandB f s).toNat) ∧
      (condPass .gu t = true ↔ (operandA f s).toNat > (operandB f s).toNat) ∧
      (condPass .leu t = true ↔ (operandA f s).toNat ≤ (operandB f s).toNat) ∧
      (condPass .ge t = true ↔ (operandA f s).toInt ≥ (operandB f s).toInt) ∧
      (condPass .l t = true ↔ (operandA f s).toInt < (operandB f s).toInt) ∧
      (condPass .g t = true ↔ (operandA f s).toInt > (operandB f s).toInt) ∧
      (condPass .le t = true ↔ (operandA f s).toInt ≤ (operandB f s).toInt)

/-- 40_condition.md R103: an instruction whose condition fails has no effect at all but the sequencer's advance, in
all classes alike; the one thing the condition does not suppress is the IllegalInstruction of opcode 4. The gating is
the spec's decision D2, the advance D7 (log entry 16). -/
def Obligations.FailedConditionDoesNothing : Prop :=
  (∀ (i : Instr) (s : State), (∀ f c, i ≠ .unassigned f c) → condPass i.cond s = false →
    exec i s = .next { s with pc := s.pc + 4#32 }) ∧
  (∀ (f : ArithFields) (c : Cond) (s : State), condPass c s = false →
    ∃ w, exec (.unassigned f c) s = .next { s with fault := some ⟨.illegalInstruction, w⟩ })

/-! ## Arithmetic -/

/-- 41_arithmetic.md R121: OR, its encoding, its result, C = O = 0, everything it leaves unchanged. The pc's advance
is the spec's decision D7 and part of `exec` by log entry 16 (DESIGN CHOICE). -/
def Obligations.OrInstruction : Prop :=
  (∀ w : Word, w &&& 0xF0000000#32 = 0x00000000#32 → decode w = .or (arithFieldsOf w) (condOf w)) ∧
  (∀ (f : ArithFields) (c : Cond) (s : State), condPass c s = true →
    ∃ t, exec (.or f c) s = .next t ∧
      AluEffect f s t ((if f.usesReg then s.reg f.regA else f.imm) ||| s.reg f.regB) false false)

/-- 41_arithmetic.md R122: XOR. The pc's advance is the spec's decision D7 and part of `exec` by log entry 16 (DESIGN
CHOICE). -/
def Obligations.XorInstruction : Prop :=
  (∀ w : Word, w &&& 0xF0000000#32 = 0x10000000#32 → decode w = .xor (arithFieldsOf w) (condOf w)) ∧
  (∀ (f : ArithFields) (c : Cond) (s : State), condPass c s = true →
    ∃ t, exec (.xor f c) s = .next t ∧
      AluEffect f s t ((if f.usesReg then s.reg f.regA else f.imm) ^^^ s.reg f.regB) false false)

/-- 41_arithmetic.md R123: AND. The pc's advance is the spec's decision D7 and part of `exec` by log entry 16 (DESIGN
CHOICE). -/
def Obligations.AndInstruction : Prop :=
  (∀ w : Word, w &&& 0xF0000000#32 = 0x20000000#32 → decode w = .and (arithFieldsOf w) (condOf w)) ∧
  (∀ (f : ArithFields) (c : Cond) (s : State), condPass c s = true →
    ∃ t, exec (.and f c) s = .next t ∧
      AluEffect f s t ((if f.usesReg then s.reg f.regA else f.imm) &&& s.reg f.regB) false false)

/-- 41_arithmetic.md R124: ANDN, for both values of the parameter `ANDN_COMPLEMENTS`, whose value at reset is B. Which
operand is complemented is the spec's decision D5 (log entry 3). The pc's advance is the spec's decision D7 and part of
`exec` by log entry 16 (DESIGN CHOICE). -/
def Obligations.AndnInstruction : Prop :=
  (∀ w : Word, w &&& 0xF0000000#32 = 0x30000000#32 → decode w = .andn (arithFieldsOf w) (condOf w)) ∧
  State.reset.cfg.andnComplements = .b ∧
  (∀ (f : ArithFields) (c : Cond) (s : State), condPass c s = true →
    ∃ t, exec (.andn f c) s = .next t ∧
      (s.cfg.andnComplements = .b →
        AluEffect f s t ((if f.usesReg then s.reg f.regA else f.imm) &&& ~~~(s.reg f.regB)) false false) ∧
      (s.cfg.andnComplements = .a →
        AluEffect f s t (~~~(if f.usesReg then s.reg f.regA else f.imm) &&& s.reg f.regB) false false))

/-- 41_arithmetic.md R125: ROL. Bit k of the result is the bit of B that lies n = A[4:0] places below k, cyclically;
carry is the result's low bit, overflow a change of the sign bit. That overflow compares with operand B is marked
derived in R125 (91_not_in_source.md N26). The pc's advance is the spec's decision D7 and part of `exec` by log entry
16 (DESIGN CHOICE). -/
def Obligations.RolInstruction : Prop :=
  (∀ w : Word, w &&& 0xF0000000#32 = 0x50000000#32 → decode w = .rol (arithFieldsOf w) (condOf w)) ∧
  (∀ (f : ArithFields) (c : Cond) (s : State), condPass c s = true →
    ∃ t r, exec (.rol f c) s = .next t ∧
      (∀ k < 32, r.getLsbD k =
        (s.reg f.regB).getLsbD ((k + 32 - (if f.usesReg then s.reg f.regA else f.imm).toNat % 32) % 32)) ∧
      AluEffect f s t r (r[0]) ((s.reg f.regB)[31] != r[31]))

/-- 41_arithmetic.md R126: ADD. The wrapped sum; carry exactly when the unsigned sum is 2^32 or more; overflow by the
rule's sign formula, which holds exactly when the signed sum is out of range. That overflow is exactly a signed sum
out of range is marked derived in R126. The pc's advance is the spec's decision D7 and part of `exec` by log entry 16
(DESIGN CHOICE). -/
def Obligations.AddInstruction : Prop :=
  (∀ w : Word, w &&& 0xF0000000#32 = 0x60000000#32 → decode w = .add (arithFieldsOf w) (condOf w)) ∧
  (∀ (f : ArithFields) (c : Cond) (s : State) (a b : Word), condPass c s = true →
    a = (if f.usesReg then s.reg f.regA else f.imm) → b = s.reg f.regB →
    ∃ t o, exec (.add f c) s = .next t ∧
      AluEffect f s t (a + b) (decide (2 ^ 32 ≤ a.toNat + b.toNat)) o ∧
      o = (a[31] == b[31] && (a + b)[31] != a[31]) ∧
      (o = true ↔ a.toInt + b.toInt < -2 ^ 31 ∨ 2 ^ 31 ≤ a.toInt + b.toInt))

/-- 41_arithmetic.md R127: SUB. The wrapped difference A − B; carry exactly when A ≥ B unsigned; overflow by the
rule's sign formula over A and ~B, which holds exactly when the signed difference is out of range. That overflow is
exactly a signed difference out of range is marked derived in R127. The pc's advance is the spec's decision D7 and
part of `exec` by log entry 16 (DESIGN CHOICE). -/
def Obligations.SubInstruction : Prop :=
  (∀ w : Word, w &&& 0xF0000000#32 = 0x70000000#32 → decode w = .sub (arithFieldsOf w) (condOf w)) ∧
  (∀ (f : ArithFields) (c : Cond) (s : State) (a b : Word), condPass c s = true →
    a = (if f.usesReg then s.reg f.regA else f.imm) → b = s.reg f.regB →
    ∃ t o, exec (.sub f c) s = .next t ∧
      AluEffect f s t (a - b) (decide (b.toNat ≤ a.toNat)) o ∧
      o = (a[31] == (~~~b)[31] && (a - b)[31] != a[31]) ∧
      (o = true ↔ a.toInt - b.toInt < -2 ^ 31 ∨ 2 ^ 31 ≤ a.toInt - b.toInt))

/-- 41_arithmetic.md R128: opcode 4 decodes, with `dec_illegal` 1 for it alone, and executing it records
IllegalInstruction with the instruction word whatever the condition; nothing else is written. The fault is the spec's
decision D4; its form is log entries 14 and 15. -/
def Obligations.UnassignedOpcodeRaises : Prop :=
  (∀ w : Word, w &&& 0xF0000000#32 = 0x40000000#32 → decode w = .unassigned (arithFieldsOf w) (condOf w)) ∧
  (∀ w : Word, (decodePorts w).decIllegal = true ↔ w &&& 0xF0000000#32 = 0x40000000#32) ∧
  (∀ (f : ArithFields) (c : Cond) (s : State),
    exec (.unassigned f c) s = .next { s with fault := some ⟨.illegalInstruction, encode (.unassigned f c)⟩ }) ∧
  (∀ (w : Word) (s : State), w &&& 0xF0000000#32 = 0x40000000#32 →
    exec (decode w) s = .next { s with fault := some ⟨.illegalInstruction, w⟩ })

/-- 60_exceptions.md R191: a running machine's step raises IllegalInstruction(w) for the words 0x40000000 to
0x4FFFFFFF and for no other word. The fault is the spec's decision D4 (log entries 14 and 15). -/
def Obligations.IllegalInstructionWords : Prop :=
  ∀ (s : State) (w : Word), s.running = true → fetch s = some w →
    ((0x40000000 ≤ w.toNat ∧ w.toNat ≤ 0x4FFFFFFF →
      (∃ f c, decode w = .unassigned f c) ∧ step s = .next { s with fault := some ⟨.illegalInstruction, w⟩ }) ∧
    (¬ (0x40000000 ≤ w.toNat ∧ w.toNat ≤ 0x4FFFFFFF) →
      ∀ t x, step s = .next t → t.fault ≠ some ⟨.illegalInstruction, x⟩))

/-- 10_state.md R27 and 41_arithmetic.md R129: only the seven Arithmetic functions with setFlags 1 and a passing
condition write flags. They write all four together: N and Z from the result for every opcode, C and O cleared by a
logical operation, and the next state, all its flags included, is the same whatever flags stood before. Every other
instruction, with setFlags 0 or a failing condition too, leaves whatever flags stood before, and they go into nothing
else: no register, no memory. -/
def Obligations.FlagsRule : Prop :=
  ∀ (i : Instr) (s t : State), exec i s = .next t →
    (t.flags ≠ s.flags → (∀ f c, i ≠ .unassigned f c) ∧
      ∃ f, i.arithFields? = some f ∧ f.setFlags = true ∧ condPass i.cond s = true) ∧
    (∀ f, i.arithFields? = some f → (∀ g c, i ≠ .unassigned g c) → f.setFlags = true → condPass i.cond s = true →
      t.flags.n = (t.reg f.regD)[31] ∧ t.flags.z = decide (t.reg f.regD = 0#32) ∧
      (i.mnemonic = "OR" ∨ i.mnemonic = "XOR" ∨ i.mnemonic = "AND" ∨ i.mnemonic = "ANDN" →
        t.flags.c = false ∧ t.flags.o = false) ∧
      ∀ old : Flags, condPass i.cond { s with flags := old } = true → exec i { s with flags := old } = .next t) ∧
    ((∀ f, i.arithFields? = some f → f.setFlags = true →
        (∃ g c, i = .unassigned g c) ∨ condPass i.cond s = false) →
      ∀ old : Flags, condPass i.cond { s with flags := old } = condPass i.cond s →
        exec i { s with flags := old } = .next { t with flags := old })

/-! ## LoadHigh -/

/-- 42_loadhigh.md R150: LDHI, its encoding, its result (the constant above ten zero bits), everything it leaves
unchanged. The pc's advance is the spec's decision D7 and part of `exec` by log entry 16 (DESIGN CHOICE). -/
def Obligations.LdhiInstruction : Prop :=
  (∀ w : Word, w &&& 0xC0000000#32 = 0x80000000#32 →
    decode w = .ldhi ((w.extractLsb' 8 22).zeroExtend 32) (w.extractLsb' 4 4) (condOf w)) ∧
  (∀ (k : BitVec 22) (d : Reg) (c : Cond) (s : State), condPass c s = true →
    ∃ t, exec (.ldhi (k.zeroExtend 32) d c) s = .next t ∧ RegisterEffect s t d (k ++ 0#10) ∧ t.input = s.input)

/-! ## Memory access and the port -/

/-- 20_memory.md R42: effective addresses and the stack's addresses are sums and differences modulo 2^32, and
0xFFFFFFFC + 4 is address 0. The stack pointer's wrap is an inference the spec marks as its own. -/
def Obligations.AddressesWrap : Prop :=
  (∀ (a : Reg) (off : Word) (s : State),
    (effectiveAddress a off s).toNat = ((s.reg a).toNat + off.toNat) % 2 ^ 32) ∧
  (∀ s : State, (pushAddress s).toNat = ((s.reg 14#4).toNat + 2 ^ 32 - 4) % 2 ^ 32 ∧
    popAddress s = s.reg 14#4) ∧
  (∀ (a : Reg) (s : State), s.reg a = 0xFFFFFFFC#32 → effectiveAddress a 4#32 s = 0#32)

/-- 43_memory_access.md R155: READ. From memory it loads the word at base plus offset; from the port it takes one
input byte, zero-extended, and has no step while there is none (it changes nothing, log entry 13); at an address that
is not readable memory it raises MemoryFault(addr) and writes nothing. The faults are the spec's decisions D9, D11 and
D14, the wait D13. The pc's advance is the spec's decision D7 and part of `exec` by log entry 16 (DESIGN CHOICE). -/
def Obligations.ReadInstruction : Prop :=
  (∀ w : Word, w &&& 0xC3C00000#32 = 0xC0000000#32 →
    decode w = .read (immOf w) (w.extractLsb' 8 4) (w.extractLsb' 4 4) (condOf w) ∧ (immOf w).toNat ≤ 63) ∧
  (∀ (off : Word) (a d : Reg) (c : Cond) (s : State), condPass c s = true →
    (effectiveAddress a off s ≠ 0xFFFFFE00#32 → memOk s.cfg .read (effectiveAddress a off s) = true →
      ∃ t, exec (.read off a d c) s = .next t ∧ t.input = s.input ∧
        RegisterEffect s t d (s.mem.readWord s.cfg.byteOrder (effectiveAddress a off s).toNat)) ∧
    (∀ b rest, effectiveAddress a off s = 0xFFFFFE00#32 → s.input = b :: rest →
      ∃ t, exec (.read off a d c) s = .next t ∧ t.input = rest ∧ RegisterEffect s t d (b.zeroExtend 32)) ∧
    (effectiveAddress a off s = 0xFFFFFE00#32 → s.input = [] → exec (.read off a d c) s = .next s) ∧
    (effectiveAddress a off s ≠ 0xFFFFFE00#32 → memOk s.cfg .read (effectiveAddress a off s) = false →
      exec (.read off a d c) s = .next { s with fault := some ⟨.memoryFault, effectiveAddress a off s⟩ }))

/-- 43_memory_access.md R156: WRITE. To memory it stores the whole word at base plus offset; to the port it emits the
low byte and stores nothing; at an address that is not writable memory it raises MemoryFault(addr) and writes nothing.
The faults are the spec's decisions D9, D11 and D14 (log entry 14). The pc's advance is the spec's decision D7 and
part of `exec` by log entry 16 (DESIGN CHOICE). -/
def Obligations.WriteInstruction : Prop :=
  (∀ w : Word, w &&& 0xC3C00000#32 = 0xC2000000#32 → w.extractLsb' 4 4 ≠ 14#4 →
    decode w = .write (immOf w) (w.extractLsb' 8 4) (w.extractLsb' 12 4) (condOf w) ∧
      -512 ≤ (immOf w).toInt ∧ (immOf w).toInt ≤ -449) ∧
  (∀ (off : Word) (a b : Reg) (c : Cond) (s : State), condPass c s = true →
    (effectiveAddress a off s ≠ 0xFFFFFE00#32 → memOk s.cfg .write (effectiveAddress a off s) = true →
      ∃ t, exec (.write off a b c) s = .next t ∧ StoreEffect s t [] (effectiveAddress a off s) (s.reg b)) ∧
    (effectiveAddress a off s = 0xFFFFFE00#32 →
      exec (.write off a b c) s =
        .next { s with output := s.output ++ [(s.reg b).extractLsb' 0 8], pc := s.pc + 4#32 }) ∧
    (effectiveAddress a off s ≠ 0xFFFFFE00#32 → memOk s.cfg .write (effectiveAddress a off s) = false →
      exec (.write off a b c) s = .next { s with fault := some ⟨.memoryFault, effectiveAddress a off s⟩ }))

/-- 20_memory.md R44 and R45, 60_exceptions.md R190: which word accesses go through, and that a word read after a word
written is the word written, every other address reading as before. The checks are the spec's decisions D9, D11 and
D12 (log entries 4 and 5). -/
def Obligations.WordAccessRules : Prop :=
  (∀ (cfg : Config) (op : MemOp) (addr : Word), memOk cfg op addr = true ↔
    addr.toNat % 4 = 0 ∧ addr ≠ 0xFFFFFE00#32 ∧
    (∃ r ∈ cfg.memMap, r.base ≤ addr.toNat ∧ addr.toNat < r.base + 4 * r.words) ∧ (op, addr) ∉ cfg.memRefuses) ∧
  (∀ (s t : State) (addr v : Word), memWrite s addr v = some t →
    (memOk s.cfg .read addr = true → memRead t addr = some v) ∧
    (∀ addr', addr' ≠ addr → memRead t addr' = memRead s addr'))

/-- Two memories in canonical form that read alike at every address are equal data. The canonical form is the model's
(log entry 11). -/
def Obligations.EqualMemoriesAreEqualData : Prop :=
  ∀ m m' : Memory, m.wf → m'.wf → (∀ a, m.readByte a = m'.readByte a) → m = m'

/-! ## The stack -/

/-- 44_stack.md R170: PUSH stores the old value of regA at `x[14] − 4` and leaves `x[14]` there, or raises
MemoryFault(addr) and writes nothing; it never performs I/O. The faults are the spec's decisions D9, D11, D12 and D14
(log entry 14). The pc's advance is the spec's decision D7 and part of `exec` by log entry 16 (DESIGN CHOICE). -/
def Obligations.PushInstruction : Prop :=
  (∀ w : Word, w &&& 0xC3C00000#32 = 0xC0400000#32 → decode w = .push (w.extractLsb' 12 4) (condOf w)) ∧
  (∀ (a : Reg) (c : Cond) (s : State), condPass c s = true →
    (memOk s.cfg .write (pushAddress s) = true →
      ∃ t, exec (.push a c) s = .next t ∧ t.reg 14#4 = pushAddress s ∧
        StoreEffect s t [14#4] (pushAddress s) (s.reg a)) ∧
    (memOk s.cfg .write (pushAddress s) = false →
      exec (.push a c) s = .next { s with fault := some ⟨.memoryFault, pushAddress s⟩ }) ∧
    (pushAddress s = 0xFFFFFE00#32 →
      exec (.push a c) s = .next { s with fault := some ⟨.memoryFault, 0xFFFFFE00#32⟩ }))

/-- 44_stack.md R171: POP loads the word at `x[14]` into regD and adds 4 to `x[14]`; for regD = 14 the sum is the
loaded word plus 4; or it raises MemoryFault(addr) and writes nothing; it never performs I/O. POP R14 is the spec's
decision D16, the faults D9, D11, D12 and D14. The pc's advance is the spec's decision D7 and part of `exec` by log
entry 16 (DESIGN CHOICE). -/
def Obligations.PopInstruction : Prop :=
  (∀ w : Word, w &&& 0xC3C00000#32 = 0xC1000000#32 → decode w = .pop (w.extractLsb' 4 4) (condOf w)) ∧
  (∀ (d : Reg) (c : Cond) (s : State), condPass c s = true →
    (memOk s.cfg .read (popAddress s) = true →
      ∃ t, exec (.pop d c) s = .next t ∧
        (d ≠ 14#4 → t.reg d = s.mem.readWord s.cfg.byteOrder (popAddress s).toNat ∧
          t.reg 14#4 = s.reg 14#4 + 4#32) ∧
        (d = 14#4 → t.reg 14#4 = s.mem.readWord s.cfg.byteOrder (popAddress s).toNat + 4#32) ∧
        RegsKept s t [d, 14#4] ∧ MemKept s t ∧ t.flags = s.flags ∧ t.pc = s.pc + 4#32 ∧ StreamsKept s t ∧
        ControlKept s t) ∧
    (memOk s.cfg .read (popAddress s) = false →
      exec (.pop d c) s = .next { s with fault := some ⟨.memoryFault, popAddress s⟩ }) ∧
    (popAddress s = 0xFFFFFE00#32 →
      exec (.pop d c) s = .next { s with fault := some ⟨.memoryFault, 0xFFFFFE00#32⟩ }))

/-- 44_stack.md R173: Push then Pop of one register other than 14 leaves the stack pointer where it was and the
register equal to the pushed value. The restriction to registers other than 14 is an inference the spec marks as its
own. -/
def Obligations.PushThenPopRestores : Prop :=
  ∀ (r : Reg) (c c' : Cond) (s : State), r ≠ 14#4 → condPass c s = true → condPass c' s = true →
    memOk s.cfg .write (pushAddress s) = true → memOk s.cfg .read (pushAddress s) = true →
    ∃ t u, exec (.push r c) s = .next t ∧ exec (.pop r c') t = .next u ∧
      u.reg 14#4 = s.reg 14#4 ∧ u.reg r = s.reg r

/-! ## Halt, NoOp -/

/-- 45_system.md R180: the words of the table's four HALT rows decode to HALT, and an executed HALT sets `halted` and
changes nothing else, the pc included. That the pc stays is the spec's decision D7 (log entry 16). -/
def Obligations.HaltInstruction : Prop :=
  (∀ w : Word, w &&& 0xC0800000#32 = 0xC0800000#32 ∨ w &&& 0xC1C00000#32 = 0xC1400000#32 ∨
    w &&& 0xC3C00000#32 = 0xC2400000#32 ∨ w &&& 0xC3C00000#32 = 0xC3000000#32 → decode w = .halt (condOf w)) ∧
  (∀ (c : Cond) (s : State), condPass c s = true → exec (.halt c) s = .next { s with halted := true })

/-- 45_system.md R182: NoOp has no effect; as every completed instruction, it is followed by the sequencer's advance.
That it has no effect is the spec's decision D23 (log entry 18). The pc's advance is the spec's decision D7 and part
of `exec` by log entry 16 (DESIGN CHOICE). -/
def Obligations.NoOpHasNoEffect : Prop :=
  ∀ (c : Cond) (s : State), execNoOp c s = .next { s with pc := s.pc + 4#32 }

/-! ## Whole-machine rules -/

/-- When the word at the pc of a running machine decodes to an instruction, one step is the execution of that
instruction (00_scope.md R12). The sequencer's advance is part of the execution (log entry 16). -/
def Obligations.StepRunsDecodedInstruction : Prop :=
  ∀ (s : State) (w : Word) (i : Instr), s.running = true → fetch s = some w → decode w = i → step s = exec i s

/-- Every step keeps the invariant: memory in canonical form, the pc and RESET_PC multiples of 4, never both halted
and faulted. The memory's form is log entry 11, the sequencer the spec's decision D7. -/
def Obligations.StepKeepsInvariant : Prop :=
  ∀ s t : State, Inv s → step s = .next t → Inv t

/-- The invariant holds at reset. That RESET_PC is 0 is log entry 7. -/
def Obligations.ResetHasInvariant : Prop := Inv State.reset

/-- 60_exceptions.md R195: a step that raises an exception writes no architectural state but the fault itself. An
inference the spec marks as its own; faults are next states by log entry 14. -/
def Obligations.FaultsArePrecise : Prop :=
  ∀ s t : State, s.running = true → step s = .next t → t.fault.isSome = true → t = { s with fault := t.fault }

/-- No step stops with a fault or a refusal: every instruction has its meaning in every state. That exceptions are taken
as next states is log entry 14; that a stuck step answers the unchanged state is log entry 13. -/
def Obligations.StepAlwaysAnswers : Prop := ∀ s : State, ∃ t, step s = .next t

/-- 10_state.md R26: a step that completes without halting or faulting advances the pc by 4 modulo 2^32, whether the
condition held or not; a step that halts or faults leaves the pc at its instruction; a stuck step leaves it unchanged.
The sequencer is the spec's decision D7, part of `exec` by log entry 16; the stuck step is log entry 13. -/
def Obligations.SequencerAdvance : Prop :=
  ∀ s t : State, s.running = true → step s = .next t →
    (s.waiting = false → t.halted = false → t.fault = none → t.pc = s.pc + 4#32) ∧
    (t.halted = true → t.pc = s.pc) ∧ (t.fault.isSome = true → t.pc = s.pc) ∧
    (s.waiting = true → t.pc = s.pc)

/-- A halted, faulted or waiting machine takes no step: nothing changes (45_system.md R181, 10_state.md R31, 20_memory.md
R49). That "no step" answers the unchanged state is the model's choice (log entry 13). -/
def Obligations.NoStepChangesNothing : Prop :=
  ∀ s : State, s.halted = true ∨ s.fault.isSome = true ∨ s.waiting = true → step s = .next s

/-- Only a HALT whose condition holds sets `halted`, and no step clears it or the fault (10_state.md R30, R31).
Stickiness is the spec's decisions D14 and D21 (log entry 13). -/
def Obligations.OnlyHaltHalts : Prop :=
  ∀ s t : State, step s = .next t →
    (s.halted = false → t.halted = true → ∃ w c, fetch s = some w ∧ decode w = .halt c ∧ condPass c s = true) ∧
    (s.halted = true → t.halted = true) ∧ (s.fault.isSome = true → t.fault = s.fault)

/-- Once a run has ended or gone wrong, any number of further steps leaves everything as it is (45_system.md R181,
60_exceptions.md R196; log entry 13). -/
def Obligations.StoppedRunIsFinal : Prop :=
  ∀ (k : Nat) (s : State), s.ended = true ∨ s.goneWrong = true → Host.Core.run Sys2Proof.core k s = .next s

/-- 60_exceptions.md R192: MemoryFault is raised only by READ, WRITE, PUSH and POP whose condition holds, with the
address of their one access, where that access does not go through; never by a READ or WRITE of the port. MemoryFault
is the spec's decisions D9, D11, D12 and D14 (log entry 14). -/
def Obligations.MemoryFaultOrigin : Prop :=
  ∀ (i : Instr) (s t : State) (addr : Word), s.fault = none → exec i s = .next t →
    t.fault = some ⟨.memoryFault, addr⟩ → condPass i.cond s = true ∧
      ((∃ off a d c, i = .read off a d c ∧ addr = effectiveAddress a off s ∧ addr ≠ 0xFFFFFE00#32 ∧
          memOk s.cfg .read addr = false) ∨
        (∃ off a b c, i = .write off a b c ∧ addr = effectiveAddress a off s ∧ addr ≠ 0xFFFFFE00#32 ∧
          memOk s.cfg .write addr = false) ∨
        (∃ a c, i = .push a c ∧ addr = pushAddress s ∧ memOk s.cfg .write addr = false) ∨
        (∃ d c, i = .pop d c ∧ addr = popAddress s ∧ memOk s.cfg .read addr = false))

/-- 20_memory.md R54: the supply of words is not data memory, and no step changes it or any other parameter. A
separate supply of words is the spec's decision D17 (log entries 1 and 8). -/
def Obligations.StoresNeverReachInstructions : Prop :=
  (∀ (s : State) (m : Memory), fetch { s with mem := m } = fetch s) ∧
  (∀ s t : State, step s = .next t → t.cfg = s.cfg)

/-- 10_state.md R32, 20_memory.md R49: an instruction consumes at most one input byte, and only as a READ of the port;
it emits at most one output byte, the low byte of regB, and only as a WRITE to the port. An inference from the READ
and WRITE rules; the gating is the spec's decision D2. -/
def Obligations.StreamsMoveOnlyAtThePort : Prop :=
  ∀ (i : Instr) (s t : State), exec i s = .next t →
    (t.input = s.input ∨ ∃ off a d c b, i = .read off a d c ∧ condPass c s = true ∧
      effectiveAddress a off s = 0xFFFFFE00#32 ∧ s.input = b :: t.input ∧ t.reg d = b.zeroExtend 32) ∧
    (t.output = s.output ∨ ∃ off a b c, i = .write off a b c ∧ condPass c s = true ∧
      effectiveAddress a off s = 0xFFFFFE00#32 ∧ t.output = s.output ++ [(s.reg b).extractLsb' 0 8])

/-- 20_memory.md R43, R50: only WRITE and PUSH change memory, and only the one word at the address they compute. An
inference from the summary of accesses. -/
def Obligations.MemoryChangesOnlyByStores : Prop :=
  ∀ (i : Instr) (s t : State), exec i s = .next t →
    MemKept s t ∨
    (∃ off a b c, i = .write off a b c ∧ effectiveAddress a off s ≠ 0xFFFFFE00#32 ∧
      MemKeptOutside s t (effectiveAddress a off s)) ∨
    (∃ a c, i = .push a c ∧ MemKeptOutside s t (pushAddress s))

/-- 10_state.md R24: an instruction writes no register outside its row's "Writes" column, and a register outside both
columns neither influences it nor is influenced by it: changing that register first changes the outcome in that
register alone. An inference from the table of reads and writes. -/
def Obligations.RegisterFootprint : Prop :=
  ∀ (i : Instr) (s t : State), exec i s = .next t →
    RegsKept s t (regsWritten i) ∧
    ∀ (r : Reg) (v : Word), r ∉ regsRead i → r ∉ regsWritten i → exec i (s.setReg r v) = .next (t.setReg r v)

/-! ## Reset, launch -/

/-- 70_reset_and_hazards.md R220, R221, 60_exceptions.md R199: reset beats a step, whatever `word_valid` is, clears
`halted` and `fault` and writes nothing else of the block; the sequencer starts again at RESET_PC (log entry 17). -/
def Obligations.ResetBeatsStep : Prop :=
  (∀ s : State, s.blockReset = { s with halted := false, fault := none }) ∧
  (∀ (s : State) (valid : Bool),
    cycle ⟨true, valid⟩ s = .next { s with halted := false, fault := none, pc := s.cfg.resetPc }) ∧
  (∀ s : State, cycle ⟨false, true⟩ s = step s ∧ cycle ⟨false, false⟩ s = .next s)

/-- 10_state.md R35, the values it gives: not halted, no fault, output empty, pc at RESET_PC, a multiple of 4. The
value of RESET_PC is log entry 7. -/
def Obligations.ResetValues : Prop :=
  State.reset.halted = false ∧ State.reset.fault = none ∧ State.reset.output = [] ∧
    State.reset.pc = State.reset.cfg.resetPc ∧ State.reset.pc.toNat % 4 = 0

/-- 70_reset_and_hazards.md R228: the launch premises of a run. That the environment does this as one operation is log
entry 17. -/
def Obligations.LaunchPremises : Prop :=
  ∀ (s : State) (bytes : List Byte),
    (s.launch bytes).halted = false ∧ (s.launch bytes).fault = none ∧ (s.launch bytes).pc = s.cfg.resetPc ∧
    (s.launch bytes).output = [] ∧ (s.launch bytes).input = bytes ∧
    (∀ r, (s.launch bytes).reg r = s.reg r) ∧ (s.launch bytes).flags = s.flags ∧ (s.launch bytes).mem = s.mem ∧
    (s.launch bytes).cfg = s.cfg

/-- 70_reset_and_hazards.md R222: a zero is obtained without reading one, from any state, with AND of the immediate 0,
with LDHI 0 and with XOR of a register with itself. An inference the spec marks as its own. -/
def Obligations.ZeroWithoutReadingOne : Prop :=
  ∀ (s : State) (b d : Reg) (c : Cond), condPass c s = true →
    (∃ t, exec (.and ⟨false, false, 0#32, 0#4, b, d⟩ c) s = .next t ∧ t.reg d = 0#32) ∧
    (∃ t, exec (.ldhi 0#32 d c) s = .next t ∧ t.reg d = 0#32) ∧
    (∃ t, exec (.xor ⟨false, true, 0#32, b, b, d⟩ c) s = .next t ∧ t.reg d = 0#32)

/-- 30_encoding.md R89: any 32-bit constant K is loaded by LDHI followed by OR with its low ten bits when K[9] = 0,
or, with the LDHI constant increased by one modulo 2^22, by ADD with them when K[9] = 1. An inference the spec marks
as its own. -/
def Obligations.AnyConstantInTwoInstructions : Prop :=
  ∀ (K : Word) (d : Reg) (c : Cond) (s : State), condPass c s = true →
    (K[9] = false → ∃ t u, exec (.ldhi ((K.extractLsb' 10 22).zeroExtend 32) d c) s = .next t ∧
      exec (.or ⟨false, false, sext10 (K.extractLsb' 0 10), 0#4, d, d⟩ c) t = .next u ∧ u.reg d = K) ∧
    (K[9] = true → ∃ t u, exec (.ldhi ((K.extractLsb' 10 22 + 1#22).zeroExtend 32) d c) s = .next t ∧
      exec (.add ⟨false, false, sext10 (K.extractLsb' 0 10), 0#4, d, d⟩ c) t = .next u ∧ u.reg d = K)

/-! ## The text form -/

/-- Words of 95_test_vectors.md part 2.1 and V5, V6 render to the text given there (30_encoding.md R84 to R88).
Spellings and operand order are the spec's decision D19. -/
def Obligations.KnownWordsRender : Prop :=
  render (decode 0x0400000F#32) = "OR        R0, R0, R0" ∧
  render (decode 0x6C001231#32) = "ADDf.NE   R1, R2, R3" ∧
  render (decode 0x4D55123E#32) = "???f.F    R1, R2, R3" ∧
  render (decode 0x848D151F#32) = "LDHI      0x12345400, R1" ∧
  render (decode 0xC03F023F#32) = "READ      R3, [R2 + 0x3f]" ∧
  render (decode 0xC200500F#32) = "WRITE     R5, [0xfffffe00]" ∧
  render (decode 0xC040E00F#32) = "PUSH      R14" ∧
  render (decode 0xC1000063#32) = "POP.LU    R6" ∧
  render (decode 0xC0800000#32) = "HALT.E"

/-- 30_encoding.md R84: every mnemonic token is at most 9 characters long, so at least one space always separates it
from the operands. An inference the spec marks as its own. -/
def Obligations.MnemonicTokensFit : Prop := ∀ i : Instr, (mnemonicToken i).toList.length ≤ 9
end

