-- ==== Sys2Proof/Laws/Decode.lean ====
section
/-! SUPPORT. The small lemmas of the bit fields: condition numbers, sign extension, and what each field of a packed
word reads. -/

namespace Sys2Proof

@[simp] theorem Cond.ofCode_code (c : Cond) : Cond.ofCode c.code = c := by cases c <;> rfl

@[simp] theorem Cond.code_ofCode (b : BitVec 4) : (Cond.ofCode b).code = b := by
  revert b
  decide

/-- A field that lies in the low part of a concatenation is a field of that part. -/
theorem extract_append_low {n m k : Nat} (x : BitVec n) (y : BitVec m) (i : Nat) (h : i + k ≤ m) :
    (x ++ y).extractLsb' i k = y.extractLsb' i k := by
  ext j hj
  have : i + j < m := by omega
  simp [← BitVec.getLsbD_eq_getElem, BitVec.getLsbD_append, hj, this]

/-- A field that lies in the high part of a concatenation is a field of that part. -/
theorem extract_append_high {n m k : Nat} (x : BitVec n) (y : BitVec m) (i : Nat) (h : m ≤ i) :
    (x ++ y).extractLsb' i k = x.extractLsb' (i - m) k := by
  ext j hj
  have h1 : ¬ i + j < m := by omega
  have h2 : i - m + j = i + j - m := by omega
  simp [← BitVec.getLsbD_eq_getElem, BitVec.getLsbD_append, hj, h1, h2]

theorem extract_whole {n : Nat} (x : BitVec n) : x.extractLsb' 0 n = x := by
  ext j hj
  simp

/-! ## The opcode table -/

/-- A word with the three fields the table's rows test, `w[31:28]`, `w[25:22]` and `w[7:4]`, and 0 elsewhere. -/
def testedWord (top sel slot : BitVec 4) : Word := top ++ 0#2 ++ sel ++ 0#14 ++ slot ++ 0#4

theorem and_testedMask (w : Word) :
    w &&& 0xF3C000F0#32 = testedWord (w.extractLsb' 28 4) (w.extractLsb' 22 4) (w.extractLsb' 4 4) := by
  apply BitVec.eq_of_getLsbD_eq
  intro i hi
  simp only [testedWord, BitVec.getLsbD_and, BitVec.getLsbD_append, BitVec.getLsbD_extractLsb', BitVec.getLsbD_zero]
  interval_cases i <;> simp

/-- Which row a word selects depends on the three tested fields alone. -/
theorem opcodeRowOf_eq (w : Word) :
    opcodeRowOf w = opcodeRowOf (testedWord (w.extractLsb' 28 4) (w.extractLsb' 22 4) (w.extractLsb' 4 4)) := by
  have masked : ∀ r ∈ opcodeTable, 0xF3C000F0#32 &&& r.mask = r.mask := by decide
  have key : ∀ r ∈ opcodeTable, r.selects w = r.selects (w &&& 0xF3C000F0#32) := by
    intro r hr
    simp only [OpcodeRow.selects, BitVec.and_assoc, masked r hr]
  rw [← and_testedMask]
  unfold opcodeRowOf
  exact List.find?_congr key

/-! ## Immediates -/

/-- A sign-extended 10-bit field is in the range of 30_encoding.md R76. -/
theorem sext10_inRange (v : BitVec 10) : immInRange (sext10 v) = true := by
  revert v
  decide

theorem sext10_extract (v : Word) (h : immInRange v = true) : sext10 (v.extractLsb' 0 10) = v := by
  simp only [immInRange, Bool.and_eq_true, decide_eq_true_eq] at h
  apply BitVec.eq_of_toInt_eq
  have e : v.extractLsb' 0 10 = v.setWidth 10 := by
    ext j hj
    simp
  rw [e, sext10, BitVec.toInt_signExtend, BitVec.toInt_setWidth]
  have := BitVec.toInt_eq_toNat_cond v
  have hlt := v.isLt
  split at this <;> simp [Int.bmod_def] <;> omega

theorem extract_sext10 (v : BitVec 10) : (sext10 v).extractLsb' 0 10 = v := by
  revert v
  decide

end Sys2Proof
end

