-- ==== Sys2Proof/Laws/State.lean ====
section
/-! SUPPORT. What each update of the state does to each field, and to the reading of a register. -/

namespace Sys2Proof.Machine

variable (s : State)

/-! ## setReg -/

@[simp] theorem State.setReg_regs (r : Reg) (v : Word) : (s.setReg r v).regs = s.regs.set r.toNat v r.isLt := rfl
@[simp] theorem State.setReg_flags (r : Reg) (v : Word) : (s.setReg r v).flags = s.flags := rfl
@[simp] theorem State.setReg_mem (r : Reg) (v : Word) : (s.setReg r v).mem = s.mem := rfl
@[simp] theorem State.setReg_input (r : Reg) (v : Word) : (s.setReg r v).input = s.input := rfl
@[simp] theorem State.setReg_output (r : Reg) (v : Word) : (s.setReg r v).output = s.output := rfl
@[simp] theorem State.setReg_halted (r : Reg) (v : Word) : (s.setReg r v).halted = s.halted := rfl
@[simp] theorem State.setReg_fault (r : Reg) (v : Word) : (s.setReg r v).fault = s.fault := rfl
@[simp] theorem State.setReg_pc (r : Reg) (v : Word) : (s.setReg r v).pc = s.pc := rfl
@[simp] theorem State.setReg_cfg (r : Reg) (v : Word) : (s.setReg r v).cfg = s.cfg := rfl

theorem State.reg_setReg (r q : Reg) (v : Word) : (s.setReg r v).reg q = if q = r then v else s.reg q := by
  simp only [State.reg, State.setReg, Vector.get_eq_getElem]
  simp [Vector.getElem_set, BitVec.toNat_inj, eq_comm]

@[simp] theorem State.reg_setReg_self (r : Reg) (v : Word) : (s.setReg r v).reg r = v := by simp [State.reg_setReg]

theorem State.reg_setReg_ne {r q : Reg} (v : Word) (h : q ≠ r) : (s.setReg r v).reg q = s.reg q := by
  simp [State.reg_setReg, h]

/-! ## commitFlags -/

@[simp] theorem State.commitFlags_regs (f : Flags) : (s.commitFlags f).regs = s.regs := rfl
@[simp] theorem State.commitFlags_flags (f : Flags) : (s.commitFlags f).flags = f := rfl
@[simp] theorem State.commitFlags_mem (f : Flags) : (s.commitFlags f).mem = s.mem := rfl
@[simp] theorem State.commitFlags_input (f : Flags) : (s.commitFlags f).input = s.input := rfl
@[simp] theorem State.commitFlags_output (f : Flags) : (s.commitFlags f).output = s.output := rfl
@[simp] theorem State.commitFlags_halted (f : Flags) : (s.commitFlags f).halted = s.halted := rfl
@[simp] theorem State.commitFlags_fault (f : Flags) : (s.commitFlags f).fault = s.fault := rfl
@[simp] theorem State.commitFlags_pc (f : Flags) : (s.commitFlags f).pc = s.pc := rfl
@[simp] theorem State.commitFlags_cfg (f : Flags) : (s.commitFlags f).cfg = s.cfg := rfl
@[simp] theorem State.commitFlags_reg (f : Flags) (q : Reg) : (s.commitFlags f).reg q = s.reg q := rfl

/-! ## advance -/

@[simp] theorem State.advance_regs : s.advance.regs = s.regs := rfl
@[simp] theorem State.advance_flags : s.advance.flags = s.flags := rfl
@[simp] theorem State.advance_mem : s.advance.mem = s.mem := rfl
@[simp] theorem State.advance_input : s.advance.input = s.input := rfl
@[simp] theorem State.advance_output : s.advance.output = s.output := rfl
@[simp] theorem State.advance_halted : s.advance.halted = s.halted := rfl
@[simp] theorem State.advance_fault : s.advance.fault = s.fault := rfl
@[simp] theorem State.advance_pc : s.advance.pc = s.pc + pcStep := rfl
@[simp] theorem State.advance_cfg : s.advance.cfg = s.cfg := rfl
@[simp] theorem State.advance_reg (q : Reg) : (s.advance).reg q = s.reg q := rfl

/-! ## storeWord -/

@[simp] theorem State.storeWord_regs (a v : Word) : (s.storeWord a v).regs = s.regs := rfl
@[simp] theorem State.storeWord_flags (a v : Word) : (s.storeWord a v).flags = s.flags := rfl
@[simp] theorem State.storeWord_mem (a v : Word) : (s.storeWord a v).mem = s.mem.writeWord s.cfg.byteOrder a.toNat v := rfl
@[simp] theorem State.storeWord_input (a v : Word) : (s.storeWord a v).input = s.input := rfl
@[simp] theorem State.storeWord_output (a v : Word) : (s.storeWord a v).output = s.output := rfl
@[simp] theorem State.storeWord_halted (a v : Word) : (s.storeWord a v).halted = s.halted := rfl
@[simp] theorem State.storeWord_fault (a v : Word) : (s.storeWord a v).fault = s.fault := rfl
@[simp] theorem State.storeWord_pc (a v : Word) : (s.storeWord a v).pc = s.pc := rfl
@[simp] theorem State.storeWord_cfg (a v : Word) : (s.storeWord a v).cfg = s.cfg := rfl
@[simp] theorem State.storeWord_reg (a v : Word) (q : Reg) : (s.storeWord a v).reg q = s.reg q := rfl

/-! ## withInput -/

@[simp] theorem State.withInput_regs (bs : List Byte) : (s.withInput bs).regs = s.regs := rfl
@[simp] theorem State.withInput_flags (bs : List Byte) : (s.withInput bs).flags = s.flags := rfl
@[simp] theorem State.withInput_mem (bs : List Byte) : (s.withInput bs).mem = s.mem := rfl
@[simp] theorem State.withInput_input (bs : List Byte) : (s.withInput bs).input = bs := rfl
@[simp] theorem State.withInput_output (bs : List Byte) : (s.withInput bs).output = s.output := rfl
@[simp] theorem State.withInput_halted (bs : List Byte) : (s.withInput bs).halted = s.halted := rfl
@[simp] theorem State.withInput_fault (bs : List Byte) : (s.withInput bs).fault = s.fault := rfl
@[simp] theorem State.withInput_pc (bs : List Byte) : (s.withInput bs).pc = s.pc := rfl
@[simp] theorem State.withInput_cfg (bs : List Byte) : (s.withInput bs).cfg = s.cfg := rfl
@[simp] theorem State.withInput_reg (bs : List Byte) (q : Reg) : (s.withInput bs).reg q = s.reg q := rfl

/-! ## emit -/

@[simp] theorem State.emit_regs (b : Byte) : (s.emit b).regs = s.regs := rfl
@[simp] theorem State.emit_flags (b : Byte) : (s.emit b).flags = s.flags := rfl
@[simp] theorem State.emit_mem (b : Byte) : (s.emit b).mem = s.mem := rfl
@[simp] theorem State.emit_input (b : Byte) : (s.emit b).input = s.input := rfl
@[simp] theorem State.emit_output (b : Byte) : (s.emit b).output = s.output ++ [b] := rfl
@[simp] theorem State.emit_halted (b : Byte) : (s.emit b).halted = s.halted := rfl
@[simp] theorem State.emit_fault (b : Byte) : (s.emit b).fault = s.fault := rfl
@[simp] theorem State.emit_pc (b : Byte) : (s.emit b).pc = s.pc := rfl
@[simp] theorem State.emit_cfg (b : Byte) : (s.emit b).cfg = s.cfg := rfl
@[simp] theorem State.emit_reg (b : Byte) (q : Reg) : (s.emit b).reg q = s.reg q := rfl

/-! ## recordFault -/

@[simp] theorem State.recordFault_regs (e : Cause) (x : Word) : (s.recordFault e x).regs = s.regs := rfl
@[simp] theorem State.recordFault_flags (e : Cause) (x : Word) : (s.recordFault e x).flags = s.flags := rfl
@[simp] theorem State.recordFault_mem (e : Cause) (x : Word) : (s.recordFault e x).mem = s.mem := rfl
@[simp] theorem State.recordFault_input (e : Cause) (x : Word) : (s.recordFault e x).input = s.input := rfl
@[simp] theorem State.recordFault_output (e : Cause) (x : Word) : (s.recordFault e x).output = s.output := rfl
@[simp] theorem State.recordFault_halted (e : Cause) (x : Word) : (s.recordFault e x).halted = s.halted := rfl
@[simp] theorem State.recordFault_fault (e : Cause) (x : Word) : (s.recordFault e x).fault = some ⟨e, x⟩ := rfl
@[simp] theorem State.recordFault_pc (e : Cause) (x : Word) : (s.recordFault e x).pc = s.pc := rfl
@[simp] theorem State.recordFault_cfg (e : Cause) (x : Word) : (s.recordFault e x).cfg = s.cfg := rfl
@[simp] theorem State.recordFault_reg (e : Cause) (x : Word) (q : Reg) : (s.recordFault e x).reg q = s.reg q := rfl

/-! ## setHalted -/

@[simp] theorem State.setHalted_regs : s.setHalted.regs = s.regs := rfl
@[simp] theorem State.setHalted_flags : s.setHalted.flags = s.flags := rfl
@[simp] theorem State.setHalted_mem : s.setHalted.mem = s.mem := rfl
@[simp] theorem State.setHalted_input : s.setHalted.input = s.input := rfl
@[simp] theorem State.setHalted_output : s.setHalted.output = s.output := rfl
@[simp] theorem State.setHalted_halted : s.setHalted.halted = true := rfl
@[simp] theorem State.setHalted_fault : s.setHalted.fault = s.fault := rfl
@[simp] theorem State.setHalted_pc : s.setHalted.pc = s.pc := rfl
@[simp] theorem State.setHalted_cfg : s.setHalted.cfg = s.cfg := rfl
@[simp] theorem State.setHalted_reg (q : Reg) : (s.setHalted).reg q = s.reg q := rfl

/-! ## supplyWord -/

@[simp] theorem State.supplyWord_regs (w : Word) : (s.supplyWord w).regs = s.regs := rfl
@[simp] theorem State.supplyWord_flags (w : Word) : (s.supplyWord w).flags = s.flags := rfl
@[simp] theorem State.supplyWord_mem (w : Word) : (s.supplyWord w).mem = s.mem := rfl
@[simp] theorem State.supplyWord_input (w : Word) : (s.supplyWord w).input = s.input := rfl
@[simp] theorem State.supplyWord_output (w : Word) : (s.supplyWord w).output = s.output := rfl
@[simp] theorem State.supplyWord_halted (w : Word) : (s.supplyWord w).halted = s.halted := rfl
@[simp] theorem State.supplyWord_fault (w : Word) : (s.supplyWord w).fault = s.fault := rfl
@[simp] theorem State.supplyWord_pc (w : Word) : (s.supplyWord w).pc = s.pc := rfl
@[simp] theorem State.supplyWord_cfg (w : Word) : (s.supplyWord w).cfg = { s.cfg with program := insertCell s.pc.toNat w s.cfg.program } := rfl
@[simp] theorem State.supplyWord_reg (w : Word) (q : Reg) : (s.supplyWord w).reg q = s.reg q := rfl

/-! ## blockReset -/

@[simp] theorem State.blockReset_regs : s.blockReset.regs = s.regs := rfl
@[simp] theorem State.blockReset_flags : s.blockReset.flags = s.flags := rfl
@[simp] theorem State.blockReset_mem : s.blockReset.mem = s.mem := rfl
@[simp] theorem State.blockReset_input : s.blockReset.input = s.input := rfl
@[simp] theorem State.blockReset_output : s.blockReset.output = s.output := rfl
@[simp] theorem State.blockReset_halted : s.blockReset.halted = false := rfl
@[simp] theorem State.blockReset_fault : s.blockReset.fault = none := rfl
@[simp] theorem State.blockReset_pc : s.blockReset.pc = s.pc := rfl
@[simp] theorem State.blockReset_cfg : s.blockReset.cfg = s.cfg := rfl
@[simp] theorem State.blockReset_reg (q : Reg) : (s.blockReset).reg q = s.reg q := rfl

/-! ## startSequencer -/

@[simp] theorem State.startSequencer_regs : s.startSequencer.regs = s.regs := rfl
@[simp] theorem State.startSequencer_flags : s.startSequencer.flags = s.flags := rfl
@[simp] theorem State.startSequencer_mem : s.startSequencer.mem = s.mem := rfl
@[simp] theorem State.startSequencer_input : s.startSequencer.input = s.input := rfl
@[simp] theorem State.startSequencer_output : s.startSequencer.output = s.output := rfl
@[simp] theorem State.startSequencer_halted : s.startSequencer.halted = s.halted := rfl
@[simp] theorem State.startSequencer_fault : s.startSequencer.fault = s.fault := rfl
@[simp] theorem State.startSequencer_pc : s.startSequencer.pc = s.cfg.resetPc := rfl
@[simp] theorem State.startSequencer_cfg : s.startSequencer.cfg = s.cfg := rfl
@[simp] theorem State.startSequencer_reg (q : Reg) : (s.startSequencer).reg q = s.reg q := rfl

/-! ## launch -/

@[simp] theorem State.launch_regs (bs : List Byte) : (s.launch bs).regs = s.regs := rfl
@[simp] theorem State.launch_flags (bs : List Byte) : (s.launch bs).flags = s.flags := rfl
@[simp] theorem State.launch_mem (bs : List Byte) : (s.launch bs).mem = s.mem := rfl
@[simp] theorem State.launch_input (bs : List Byte) : (s.launch bs).input = bs := rfl
@[simp] theorem State.launch_output (bs : List Byte) : (s.launch bs).output = [] := rfl
@[simp] theorem State.launch_halted (bs : List Byte) : (s.launch bs).halted = false := rfl
@[simp] theorem State.launch_fault (bs : List Byte) : (s.launch bs).fault = none := rfl
@[simp] theorem State.launch_pc (bs : List Byte) : (s.launch bs).pc = s.cfg.resetPc := rfl
@[simp] theorem State.launch_cfg (bs : List Byte) : (s.launch bs).cfg = s.cfg := rfl
@[simp] theorem State.launch_reg (bs : List Byte) (q : Reg) : (s.launch bs).reg q = s.reg q := rfl

/-! ## supplyInput -/

@[simp] theorem State.supplyInput_regs (bs : List Byte) : (s.supplyInput bs).regs = s.regs := rfl
@[simp] theorem State.supplyInput_flags (bs : List Byte) : (s.supplyInput bs).flags = s.flags := rfl
@[simp] theorem State.supplyInput_mem (bs : List Byte) : (s.supplyInput bs).mem = s.mem := rfl
@[simp] theorem State.supplyInput_input (bs : List Byte) : (s.supplyInput bs).input = s.input ++ bs := rfl
@[simp] theorem State.supplyInput_output (bs : List Byte) : (s.supplyInput bs).output = s.output := rfl
@[simp] theorem State.supplyInput_halted (bs : List Byte) : (s.supplyInput bs).halted = s.halted := rfl
@[simp] theorem State.supplyInput_fault (bs : List Byte) : (s.supplyInput bs).fault = s.fault := rfl
@[simp] theorem State.supplyInput_pc (bs : List Byte) : (s.supplyInput bs).pc = s.pc := rfl
@[simp] theorem State.supplyInput_cfg (bs : List Byte) : (s.supplyInput bs).cfg = s.cfg := rfl
@[simp] theorem State.supplyInput_reg (bs : List Byte) (q : Reg) : (s.supplyInput bs).reg q = s.reg q := rfl

end Sys2Proof.Machine
end

