-- ==== Sys2Proof/Laws/Memory.lean ====
section
/-! SUPPORT. Memory: read after write, everything outside a write, and the canonical form kept by every memory
operation. -/

namespace Sys2Proof.Machine

section Cells

variable {α : Type}

theorem lookupCell_insertCell (a b : Nat) (v : α) (l : List (Nat × α)) :
    lookupCell b (insertCell a v l) = if b = a then some v else lookupCell b l := by
  induction l with
  | nil => simp [insertCell, lookupCell]
  | cons c rest ih =>
    obtain ⟨k, x⟩ := c
    simp only [insertCell]
    by_cases h1 : a < k
    · simp [h1, lookupCell]
    · by_cases h2 : a = k
      · subst h2
        by_cases h3 : b = a <;> simp [lookupCell, h3]
      · by_cases h3 : b = k
        · have : b ≠ a := by omega
          simp [h1, h2, lookupCell, h3, Ne.symm h2]
        · simp [h1, h2, lookupCell, h3, ih]

theorem lookupCell_eraseCell (a b : Nat) (l : List (Nat × α)) :
    lookupCell b (eraseCell a l) = if b = a then none else lookupCell b l := by
  induction l with
  | nil => simp [eraseCell, lookupCell]
  | cons c rest ih =>
    obtain ⟨k, x⟩ := c
    by_cases h1 : a = k
    · subst h1
      by_cases h3 : b = a
      · subst h3
        simpa [eraseCell] using ih
      · simpa [eraseCell, lookupCell, h3] using ih
    · by_cases h3 : b = k
      · have : k ≠ a := fun h => h1 h.symm
        simp [eraseCell, lookupCell, h1, h3, this]
      · simp [eraseCell, lookupCell, h1, h3, ih]

theorem mem_insertCell {a : Nat} {v : α} {l : List (Nat × α)} {c : Nat × α} (h : c ∈ insertCell a v l) :
    c = (a, v) ∨ c ∈ l := by
  induction l with
  | nil => simpa [insertCell] using h
  | cons d rest ih =>
    obtain ⟨k, x⟩ := d
    simp only [insertCell] at h
    split at h
    · simpa using h
    · split at h
      · rcases List.mem_cons.1 h with h | h
        · exact .inl h
        · exact .inr (List.mem_cons_of_mem _ h)
      · rcases List.mem_cons.1 h with h | h
        · exact .inr (h ▸ List.mem_cons_self)
        · rcases ih h with h | h
          · exact .inl h
          · exact .inr (List.mem_cons_of_mem _ h)

theorem mem_eraseCell {a : Nat} {l : List (Nat × α)} {c : Nat × α} (h : c ∈ eraseCell a l) : c ∈ l := by
  induction l with
  | nil => simp [eraseCell] at h
  | cons d rest ih =>
    simp only [eraseCell] at h
    split at h
    · exact List.mem_cons_of_mem _ (ih h)
    · rcases List.mem_cons.1 h with h | h
      · exact h ▸ List.mem_cons_self
      · exact List.mem_cons_of_mem _ (ih h)

theorem insertCell_rising {a : Nat} {v : α} {l : List (Nat × α)} (h : l.Pairwise (fun x y => x.1 < y.1)) :
    (insertCell a v l).Pairwise (fun x y => x.1 < y.1) := by
  induction l with
  | nil => simp [insertCell]
  | cons d rest ih =>
    obtain ⟨k, x⟩ := d
    obtain ⟨hk, hr⟩ := List.pairwise_cons.1 h
    simp only [insertCell]
    split
    case isTrue h1 =>
      refine List.pairwise_cons.2 ⟨fun c hc => ?_, h⟩
      rcases List.mem_cons.1 hc with hc | hc
      · exact hc ▸ h1
      · exact Nat.lt_trans h1 (hk c hc)
    case isFalse h1 =>
      split
      case isTrue h2 =>
        subst h2
        exact List.pairwise_cons.2 ⟨fun c hc => hk c hc, hr⟩
      case isFalse h2 =>
        refine List.pairwise_cons.2 ⟨fun c hc => ?_, ih hr⟩
        rcases mem_insertCell hc with hc | hc
        · subst hc
          simp only
          omega
        · exact hk c hc

theorem eraseCell_rising {a : Nat} {l : List (Nat × α)} (h : l.Pairwise (fun x y => x.1 < y.1)) :
    (eraseCell a l).Pairwise (fun x y => x.1 < y.1) := by
  induction l with
  | nil => simp [eraseCell]
  | cons d rest ih =>
    obtain ⟨hk, hr⟩ := List.pairwise_cons.1 h
    simp only [eraseCell]
    split
    · exact ih hr
    · exact List.pairwise_cons.2 ⟨fun c hc => hk c (mem_eraseCell hc), ih hr⟩

end Cells

/-! ## One byte -/

theorem Memory.readByte_writeByte (m : Memory) (a b : Nat) (v : Byte) :
    (m.writeByte a v).readByte b = if b = a then v else m.readByte b := by
  unfold Memory.writeByte Memory.readByte
  by_cases hv : v = unwrittenByte
  · by_cases hb : b = a <;> simp [hv, hb, lookupCell_eraseCell]
  · by_cases hb : b = a <;> simp [hv, hb, lookupCell_insertCell]

theorem Memory.writeByte_wf {m : Memory} {a : Nat} {v : Byte} (h : m.wf) (ha : a < 2 ^ 32) :
    (m.writeByte a v).wf := by
  unfold Memory.writeByte
  split
  · exact ⟨eraseCell_rising h.1, fun c hc => h.2 c (mem_eraseCell hc)⟩
  · refine ⟨insertCell_rising h.1, fun c hc => ?_⟩
    rcases mem_insertCell hc with hc | hc
    · subst hc
      exact ⟨ha, ‹_›⟩
    · exact h.2 c hc

/-! ## One word -/

theorem Memory.readByte_writeWord_outside (o : ByteOrder) (m : Memory) (a b : Nat) (v : Word)
    (h : b < a ∨ a + 4 ≤ b) : (m.writeWord o a v).readByte b = m.readByte b := by
  have h0 : b ≠ a := by omega
  have h1 : b ≠ a + 1 := by omega
  have h2 : b ≠ a + 2 := by omega
  have h3 : b ≠ a + 3 := by omega
  simp [Memory.writeWord, Memory.readByte_writeByte, h0, h1, h2, h3]

theorem Memory.readByte_writeWord_inside (o : ByteOrder) (m : Memory) (a i : Nat) (v : Word) (h : i < 4) :
    (m.writeWord o a v).readByte (a + i) = wordByte o v i := by
  have : i = 0 ∨ i = 1 ∨ i = 2 ∨ i = 3 := by omega
  rcases this with rfl | rfl | rfl | rfl <;> simp [Memory.writeWord, Memory.readByte_writeByte]

theorem four_bytes (v : Word) :
    v.extractLsb' 24 8 ++ v.extractLsb' 16 8 ++ v.extractLsb' 8 8 ++ v.extractLsb' 0 8 = v := by
  ext i hi
  simp only [← BitVec.getLsbD_eq_getElem, BitVec.getLsbD_append, BitVec.getLsbD_extractLsb']
  by_cases h1 : i < 8
  · simp [h1]
  · by_cases h2 : i < 16
    · have : i - 8 < 8 := by omega
      have e : 8 + (i - 8) = i := by omega
      simp [h1, this, e]
    · by_cases h3 : i < 24
      · have p : ¬ i - 8 < 8 := by omega
        have q : i - 8 - 8 < 8 := by omega
        have e : 16 + (i - 8 - 8) = i := by omega
        simp [h1, p, q, e]
      · have p : ¬ i - 8 < 8 := by omega
        have q : ¬ i - 8 - 8 < 8 := by omega
        have r : i - 8 - 8 - 8 < 8 := by omega
        have e : 24 + (i - 8 - 8 - 8) = i := by omega
        simp [h1, p, q, r, e]

theorem Memory.readWord_writeWord_self (o : ByteOrder) (m : Memory) (a : Nat) (v : Word) :
    (m.writeWord o a v).readWord o a = v := by
  have r0 := Memory.readByte_writeWord_inside o m a 0 v (by omega)
  have r1 := Memory.readByte_writeWord_inside o m a 1 v (by omega)
  have r2 := Memory.readByte_writeWord_inside o m a 2 v (by omega)
  have r3 := Memory.readByte_writeWord_inside o m a 3 v (by omega)
  rw [Nat.add_zero] at r0
  cases o <;> simp only [Memory.readWord, r0, r1, r2, r3, wordByte] <;> exact four_bytes v

theorem Memory.readWord_writeWord_outside (o : ByteOrder) (m : Memory) (a b : Nat) (v : Word)
    (h : b + 4 ≤ a ∨ a + 4 ≤ b) : (m.writeWord o a v).readWord o b = m.readWord o b := by
  have r (i : Nat) (hi : i < 4) : (m.writeWord o a v).readByte (b + i) = m.readByte (b + i) :=
    Memory.readByte_writeWord_outside o m a (b + i) v (by omega)
  have r0 := r 0 (by omega)
  rw [Nat.add_zero] at r0
  cases o <;> simp only [Memory.readWord, r0, r 1 (by omega), r 2 (by omega), r 3 (by omega)]

theorem Memory.writeWord_wf {o : ByteOrder} {m : Memory} {a : Nat} {v : Word} (h : m.wf) (ha : a + 3 < 2 ^ 32) :
    (m.writeWord o a v).wf :=
  Memory.writeByte_wf (Memory.writeByte_wf (Memory.writeByte_wf (Memory.writeByte_wf h (by omega)) (by omega))
    (by omega)) (by omega)

theorem State.reset_memory_wf : State.reset.mem.wf := by decide

/-! ## The checks of a word access -/

theorem aligned_iff (addr : Word) : aligned addr = true ↔ addr.toNat % 4 = 0 := by
  simp [aligned, ← BitVec.toNat_inj, BitVec.extractLsb'_toNat]

theorem memOk_iff (cfg : Config) (op : MemOp) (addr : Word) :
    memOk cfg op addr = true ↔
      addr.toNat % 4 = 0 ∧ addr ≠ ioAddr ∧ memValid cfg addr = true ∧ memRefused cfg op addr = false := by
  simp [memOk, aligned_iff, and_assoc]

theorem memOk_in_range {cfg : Config} {op : MemOp} {addr : Word} (h : memOk cfg op addr = true) :
    addr.toNat + 3 < 2 ^ 32 := by
  have := ((memOk_iff cfg op addr).1 h).1
  have := addr.isLt
  omega

/-- `memRead` delivers exactly the word at an address that passes the checks. -/
theorem memRead_eq_some_iff (s : State) (addr v : Word) :
    memRead s addr = some v ↔ memOk s.cfg .read addr = true ∧ s.mem.readWord s.cfg.byteOrder addr.toNat = v := by
  simp [memRead]

theorem memRead_eq_none_iff (s : State) (addr : Word) : memRead s addr = none ↔ memOk s.cfg .read addr = false := by
  simp [memRead]

/-- `memWrite` answers exactly the state with the word stored, at an address that passes the checks. -/
theorem memWrite_eq_some_iff (s t : State) (addr v : Word) :
    memWrite s addr v = some t ↔ memOk s.cfg .write addr = true ∧ s.storeWord addr v = t := by
  simp [memWrite]

theorem memWrite_eq_none_iff (s : State) (addr v : Word) :
    memWrite s addr v = none ↔ memOk s.cfg .write addr = false := by
  simp [memWrite]

theorem State.storeWord_outside (s : State) (addr v : Word) (a : Nat) (h : a < addr.toNat ∨ addr.toNat + 4 ≤ a) :
    (s.storeWord addr v).mem.readByte a = s.mem.readByte a := by
  simpa using Memory.readByte_writeWord_outside s.cfg.byteOrder s.mem addr.toNat a v h

/-- Every store that goes through keeps the canonical form. -/
theorem memWrite_wf {s t : State} {addr v : Word} (h : memWrite s addr v = some t) (hw : s.mem.wf) : t.mem.wf := by
  obtain ⟨hok, rfl⟩ := (memWrite_eq_some_iff s t addr v).1 h
  exact Memory.writeWord_wf hw (memOk_in_range hok)

end Sys2Proof.Machine
end

