-- ==== Sys2Proof/Laws/Ops.lean ====
section
/-! SUPPORT. What each shared operation can do, said once; and, from those, everything `exec` can do (`exec_effect`). -/

namespace Sys2Proof.Machine

/-! ## Gating and the streams -/

theorem gated_pass {c : Cond} {s : State} {effect : State → Result} (h : condPass c s = true) :
    gated c s effect = effect s := by
  simp [gated, h]

theorem gated_fail {c : Cond} {s : State} {effect : State → Result} (h : condPass c s = false) :
    gated c s effect = .next s.advance := by
  simp [gated, h, complete]

/-- What a gated instruction answers. -/
theorem gated_cases {c : Cond} {s t : State} {effect : State → Result} (h : gated c s effect = .next t) :
    (condPass c s = false ∧ t = s.advance) ∨ (condPass c s = true ∧ effect s = .next t) := by
  cases hc : condPass c s with
  | false =>
    rw [gated_fail hc] at h
    cases h
    exact .inl ⟨rfl, rfl⟩
  | true => exact .inr ⟨rfl, by rwa [gated_pass hc] at h⟩

theorem complete_eq_next {s t : State} (h : complete s = .next t) : t = s.advance := by
  cases h
  rfl

theorem raise_eq_next {e : Cause} {x : Word} {s t : State} (h : raise e x s = .next t) : t = s.recordFault e x := by
  cases h
  rfl

theorem noStep_eq_next {s t : State} (h : noStep s = .next t) : t = s := by
  cases h
  rfl

theorem ioIn_eq_some_iff (s t : State) (b : Byte) :
    ioIn s = some (b, t) ↔ ∃ rest, s.input = b :: rest ∧ t = s.withInput rest := by
  unfold ioIn
  cases h : s.input with
  | nil => simp
  | cons x rest => simp [eq_comm, and_comm]

theorem ioIn_eq_none_iff (s : State) : ioIn s = none ↔ s.input = [] := by
  unfold ioIn
  cases h : s.input <;> simp

/-! ## Loads and stores -/

/-- What a load answers: the word was readable and is used, or MemoryFault(addr) is raised. -/
theorem withLoaded_cases {addr : Word} {s t : State} {use : Word → State} (h : withLoaded addr s use = .next t) :
    (∃ v, memRead s addr = some v ∧ t = (use v).advance) ∨
      (memOk s.cfg .read addr = false ∧ t = s.recordFault .memoryFault addr) := by
  unfold withLoaded at h
  cases hv : memRead s addr with
  | some v =>
    rw [hv] at h
    exact .inl ⟨v, rfl, complete_eq_next h⟩
  | none =>
    rw [hv] at h
    exact .inr ⟨(memRead_eq_none_iff s addr).1 hv, raise_eq_next h⟩

/-- What a store answers: the word was stored and the rest done, or MemoryFault(addr) is raised. -/
theorem withStored_cases {addr v : Word} {s t : State} {use : State → State}
    (h : withStored addr v s use = .next t) :
    (memOk s.cfg .write addr = true ∧ t = (use (s.storeWord addr v)).advance) ∨
      (memOk s.cfg .write addr = false ∧ t = s.recordFault .memoryFault addr) := by
  unfold withStored at h
  cases hv : memWrite s addr v with
  | some s' =>
    rw [hv] at h
    obtain ⟨hok, rfl⟩ := (memWrite_eq_some_iff s s' addr v).1 hv
    exact .inl ⟨hok, complete_eq_next h⟩
  | none =>
    rw [hv] at h
    exact .inr ⟨(memWrite_eq_none_iff s addr v).1 hv, raise_eq_next h⟩

/-- What a READ of the port answers: a byte is consumed, or nothing happens. -/
theorem readPort_cases {d : Reg} {s t : State} (h : readPort d s = .next t) :
    (∃ b rest, s.input = b :: rest ∧ t = ((s.withInput rest).setReg d (b.zeroExtend 32)).advance) ∨
      (s.input = [] ∧ t = s) := by
  unfold readPort at h
  cases hi : ioIn s with
  | none =>
    rw [hi] at h
    exact .inr ⟨(ioIn_eq_none_iff s).1 hi, noStep_eq_next h⟩
  | some p =>
    obtain ⟨b, s'⟩ := p
    rw [hi] at h
    obtain ⟨rest, hin, rfl⟩ := (ioIn_eq_some_iff s s' b).1 hi
    exact .inl ⟨b, rest, hin, complete_eq_next h⟩

/-! ## The Arithmetic shape -/

/-- What an Arithmetic instruction answers. -/
theorem execAlu_cases {alu : Word → Word → AluResult} {f : ArithFields} {c : Cond} {s t : State}
    (h : execAlu alu f c s = .next t) :
    (condPass c s = false ∧ t = s.advance) ∨
      (condPass c s = true ∧ t = (storeResult f (alu (operandA f s) (operandB f s)) s).advance) := by
  rcases gated_cases h with h | ⟨hc, h⟩
  · exact .inl h
  · exact .inr ⟨hc, complete_eq_next h⟩

section storeResult

variable (f : ArithFields) (x : AluResult) (s : State)

theorem storeResult_flags : (storeResult f x s).flags = if f.setFlags then x.flags else s.flags := by
  unfold storeResult
  split <;> simp

theorem storeResult_reg (q : Reg) : (storeResult f x s).reg q = if q = f.regD then x.result else s.reg q := by
  unfold storeResult
  split <;> simp [State.reg_setReg]

@[simp] theorem storeResult_mem : (storeResult f x s).mem = s.mem := by unfold storeResult; split <;> rfl
@[simp] theorem storeResult_input : (storeResult f x s).input = s.input := by unfold storeResult; split <;> rfl
@[simp] theorem storeResult_output : (storeResult f x s).output = s.output := by unfold storeResult; split <;> rfl
@[simp] theorem storeResult_halted : (storeResult f x s).halted = s.halted := by unfold storeResult; split <;> rfl
@[simp] theorem storeResult_fault : (storeResult f x s).fault = s.fault := by unfold storeResult; split <;> rfl
@[simp] theorem storeResult_pc : (storeResult f x s).pc = s.pc := by unfold storeResult; split <;> rfl
@[simp] theorem storeResult_cfg : (storeResult f x s).cfg = s.cfg := by unfold storeResult; split <;> rfl

end storeResult

/-! ## Everything an instruction can do -/

/-- The next states instruction `i` can lead to from `s`. -/
inductive Effect (i : Instr) (s : State) : State → Prop
  /-- The condition failed (40_condition.md R103). -/
  | skipped : condPass i.cond s = false → Effect i s s.advance
  /-- An Arithmetic instruction other than `???` (41_arithmetic.md R120). -/
  | computed (f : ArithFields) (x : AluResult) :
      i.arithFields? = some f → (∀ g c, i ≠ .unassigned g c) → condPass i.cond s = true →
      Effect i s (storeResult f x s).advance
  /-- LDHI (42_loadhigh.md R150). -/
  | loadedHigh (k : Word) (d : Reg) (c : Cond) :
      i = .ldhi k d c → condPass c s = true → Effect i s (s.setReg d (k <<< 10)).advance
  /-- READ of memory (43_memory_access.md R155). -/
  | loaded (off : Word) (a d : Reg) (c : Cond) (v : Word) :
      i = .read off a d c → condPass c s = true → effectiveAddress a off s ≠ ioAddr →
      memRead s (effectiveAddress a off s) = some v → Effect i s (s.setReg d v).advance
  /-- READ of the port with a byte there. -/
  | consumed (off : Word) (a d : Reg) (c : Cond) (b : Byte) (rest : List Byte) :
      i = .read off a d c → condPass c s = true → effectiveAddress a off s = ioAddr → s.input = b :: rest →
      Effect i s ((s.withInput rest).setReg d (b.zeroExtend 32)).advance
  /-- READ of the port with no byte there (20_memory.md R49). -/
  | waited (off : Word) (a d : Reg) (c : Cond) :
      i = .read off a d c → condPass c s = true → effectiveAddress a off s = ioAddr → s.input = [] → Effect i s s
  /-- WRITE to memory (43_memory_access.md R156). -/
  | stored (off : Word) (a b : Reg) (c : Cond) :
      i = .write off a b c → condPass c s = true → effectiveAddress a off s ≠ ioAddr →
      memOk s.cfg .write (effectiveAddress a off s) = true →
      Effect i s (s.storeWord (effectiveAddress a off s) (s.reg b)).advance
  /-- WRITE to the port. -/
  | emitted (off : Word) (a b : Reg) (c : Cond) :
      i = .write off a b c → condPass c s = true → effectiveAddress a off s = ioAddr →
      Effect i s (s.emit ((s.reg b).extractLsb' 0 8)).advance
  /-- PUSH (44_stack.md R170). -/
  | pushed (a : Reg) (c : Cond) :
      i = .push a c → condPass c s = true → memOk s.cfg .write (pushAddress s) = true →
      Effect i s ((s.storeWord (pushAddress s) (s.reg a)).setReg spReg (pushAddress s)).advance
  /-- POP (44_stack.md R171). -/
  | popped (d : Reg) (c : Cond) (v : Word) :
      i = .pop d c → condPass c s = true → memRead s (popAddress s) = some v →
      Effect i s ((s.setReg d v).setReg spReg ((s.setReg d v).reg spReg + stackStep)).advance
  /-- HALT (45_system.md R180). -/
  | stopped (c : Cond) : i = .halt c → condPass c s = true → Effect i s s.setHalted
  /-- MemoryFault of a READ (60_exceptions.md R192). -/
  | readFaulted (off : Word) (a d : Reg) (c : Cond) :
      i = .read off a d c → condPass c s = true → effectiveAddress a off s ≠ ioAddr →
      memOk s.cfg .read (effectiveAddress a off s) = false →
      Effect i s (s.recordFault .memoryFault (effectiveAddress a off s))
  /-- MemoryFault of a WRITE. -/
  | writeFaulted (off : Word) (a b : Reg) (c : Cond) :
      i = .write off a b c → condPass c s = true → effectiveAddress a off s ≠ ioAddr →
      memOk s.cfg .write (effectiveAddress a off s) = false →
      Effect i s (s.recordFault .memoryFault (effectiveAddress a off s))
  /-- MemoryFault of a PUSH. -/
  | pushFaulted (a : Reg) (c : Cond) :
      i = .push a c → condPass c s = true → memOk s.cfg .write (pushAddress s) = false →
      Effect i s (s.recordFault .memoryFault (pushAddress s))
  /-- MemoryFault of a POP. -/
  | popFaulted (d : Reg) (c : Cond) :
      i = .pop d c → condPass c s = true → memOk s.cfg .read (popAddress s) = false →
      Effect i s (s.recordFault .memoryFault (popAddress s))
  /-- IllegalInstruction (60_exceptions.md R191). -/
  | illegal (f : ArithFields) (c : Cond) :
      i = .unassigned f c → Effect i s (s.recordFault .illegalInstruction (encodeArith 4 f c))

/-- An Arithmetic instruction's next states, for every ALU function. -/
theorem execAlu_effect {alu : Word → Word → AluResult} {i : Instr} {f : ArithFields} {c : Cond} {s t : State}
    (hf : i.arithFields? = some f) (hu : ∀ g c, i ≠ .unassigned g c) (hc : i.cond = c)
    (h : execAlu alu f c s = .next t) : Effect i s t := by
  subst hc
  rcases execAlu_cases h with ⟨hc, rfl⟩ | ⟨hc, rfl⟩
  · exact .skipped hc
  · exact .computed f _ hf hu hc

theorem execRead_effect {off : Word} {a d : Reg} {c : Cond} {s t : State} (h : execRead off a d c s = .next t) :
    Effect (.read off a d c) s t := by
  rcases gated_cases h with ⟨hc, rfl⟩ | ⟨hc, h⟩
  · exact .skipped hc
  · by_cases hp : effectiveAddress a off s = ioAddr
    · rw [if_pos hp] at h
      rcases readPort_cases h with ⟨b, rest, hin, rfl⟩ | ⟨hin, ht⟩
      · exact .consumed off a d c b rest rfl hc hp hin
      · rw [ht]
        exact .waited off a d c rfl hc hp hin
    · rw [if_neg hp] at h
      rcases withLoaded_cases h with ⟨v, hv, rfl⟩ | ⟨hok, rfl⟩
      · exact .loaded off a d c v rfl hc hp hv
      · exact .readFaulted off a d c rfl hc hp hok

theorem execWrite_effect {off : Word} {a b : Reg} {c : Cond} {s t : State} (h : execWrite off a b c s = .next t) :
    Effect (.write off a b c) s t := by
  rcases gated_cases h with ⟨hc, rfl⟩ | ⟨hc, h⟩
  · exact .skipped hc
  · by_cases hp : effectiveAddress a off s = ioAddr
    · rw [if_pos hp] at h
      rw [complete_eq_next h]
      exact .emitted off a b c rfl hc hp
    · rw [if_neg hp] at h
      rcases withStored_cases h with ⟨hok, rfl⟩ | ⟨hok, rfl⟩
      · exact .stored off a b c rfl hc hp hok
      · exact .writeFaulted off a b c rfl hc hp hok

theorem execPush_effect {a : Reg} {c : Cond} {s t : State} (h : execPush a c s = .next t) :
    Effect (.push a c) s t := by
  rcases gated_cases h with ⟨hc, rfl⟩ | ⟨hc, h⟩
  · exact .skipped hc
  · rcases withStored_cases h with ⟨hok, rfl⟩ | ⟨hok, rfl⟩
    · exact .pushed a c rfl hc hok
    · exact .pushFaulted a c rfl hc hok

theorem execPop_effect {d : Reg} {c : Cond} {s t : State} (h : execPop d c s = .next t) : Effect (.pop d c) s t := by
  rcases gated_cases h with ⟨hc, rfl⟩ | ⟨hc, h⟩
  · exact .skipped hc
  · rcases withLoaded_cases h with ⟨v, hv, rfl⟩ | ⟨hok, rfl⟩
    · exact .popped d c v rfl hc hv
    · exact .popFaulted d c rfl hc hok

/-- Everything `exec` can do, guards included. -/
theorem exec_effect {i : Instr} {s t : State} (h : exec i s = .next t) : Effect i s t := by
  cases i with
  | or f c => exact execAlu_effect rfl (by simp) rfl h
  | xor f c => exact execAlu_effect rfl (by simp) rfl h
  | and f c => exact execAlu_effect rfl (by simp) rfl h
  | andn f c => exact execAlu_effect rfl (by simp) rfl h
  | unassigned f c =>
    rw [raise_eq_next h]
    exact .illegal f c rfl
  | rol f c => exact execAlu_effect rfl (by simp) rfl h
  | add f c => exact execAlu_effect rfl (by simp) rfl h
  | sub f c => exact execAlu_effect rfl (by simp) rfl h
  | ldhi k d c =>
    have h : execLdhi k d c s = .next t := h
    rcases gated_cases h with ⟨hc, rfl⟩ | ⟨hc, h⟩
    · exact .skipped hc
    · rw [complete_eq_next h]
      exact .loadedHigh k d c rfl hc
  | read off a d c => exact execRead_effect h
  | write off a b c => exact execWrite_effect h
  | push a c => exact execPush_effect h
  | pop d c => exact execPop_effect h
  | halt c =>
    have h : execHalt c s = .next t := h
    rcases gated_cases h with ⟨hc, rfl⟩ | ⟨hc, h⟩
    · exact .skipped hc
    · cases h
      exact .stopped c rfl hc

/-- Everything `step` can do. -/
theorem step_cases {s t : State} (h : step s = .next t) :
    (s.running = false ∧ t = s) ∨ (s.running = true ∧ fetch s = none ∧ t = s) ∨
      (∃ w, s.running = true ∧ fetch s = some w ∧ Effect (decode w) s t) := by
  unfold step at h
  cases hr : s.running with
  | false =>
    rw [hr] at h
    exact .inl ⟨rfl, noStep_eq_next h⟩
  | true =>
    rw [hr, if_pos rfl] at h
    cases hf : fetch s with
    | none =>
      rw [hf] at h
      exact .inr (.inl ⟨rfl, rfl, noStep_eq_next h⟩)
    | some w =>
      rw [hf] at h
      exact .inr (.inr ⟨w, rfl, rfl, exec_effect h⟩)

end Sys2Proof.Machine
end

