-- ==== Sys2Proof/Laws/Exec.lean ====
section
/-! SUPPORT. What `exec` answers for each instruction, as equations: where its condition passes, and where it fails. -/

namespace Sys2Proof.Machine

/-! ## A failing condition -/

/-- Every instruction but `???` advances and does nothing else where its condition fails (40_condition.md R103). -/
theorem exec_of_condPass_false {i : Instr} {s : State} (hi : ∀ f c, i ≠ .unassigned f c)
    (h : condPass i.cond s = false) : exec i s = .next s.advance := by
  cases i with
  | unassigned f c => exact absurd rfl (hi f c)
  | _ =>
    simp only [exec, execOr, execXor, execAnd, execAndn, execRol, execAdd, execSub, execAlu, execLdhi, execRead,
      execWrite, execPush, execPop, execHalt]
    exact gated_fail h

/-! ## A passing condition -/

section pass

variable {c : Cond} {s : State} (h : condPass c s = true)
include h

theorem execAlu_of_condPass (alu : Word → Word → AluResult) (f : ArithFields) :
    execAlu alu f c s = .next (storeResult f (alu (operandA f s) (operandB f s)) s).advance := gated_pass h

theorem exec_or (f : ArithFields) :
    exec (.or f c) s = .next (storeResult f (aluOr (operandA f s) (operandB f s)) s).advance :=
  execAlu_of_condPass h _ f

theorem exec_xor (f : ArithFields) :
    exec (.xor f c) s = .next (storeResult f (aluXor (operandA f s) (operandB f s)) s).advance :=
  execAlu_of_condPass h _ f

theorem exec_and (f : ArithFields) :
    exec (.and f c) s = .next (storeResult f (aluAnd (operandA f s) (operandB f s)) s).advance :=
  execAlu_of_condPass h _ f

theorem exec_andn (f : ArithFields) :
    exec (.andn f c) s =
      .next (storeResult f (aluAndn s.cfg.andnComplements (operandA f s) (operandB f s)) s).advance :=
  execAlu_of_condPass h _ f

theorem exec_rol (f : ArithFields) :
    exec (.rol f c) s = .next (storeResult f (aluRol (operandA f s) (operandB f s)) s).advance :=
  execAlu_of_condPass h _ f

theorem exec_add (f : ArithFields) :
    exec (.add f c) s = .next (storeResult f (aluAdd (operandA f s) (operandB f s)) s).advance :=
  execAlu_of_condPass h _ f

theorem exec_sub (f : ArithFields) :
    exec (.sub f c) s = .next (storeResult f (aluSub (operandA f s) (operandB f s)) s).advance :=
  execAlu_of_condPass h _ f

theorem exec_ldhi (k : Word) (d : Reg) : exec (.ldhi k d c) s = .next (s.setReg d (k <<< 10)).advance := by
  show execLdhi k d c s = _
  rw [execLdhi, gated_pass h, complete]

theorem exec_read_port {off : Word} {a d : Reg} (hp : effectiveAddress a off s = ioAddr) :
    exec (.read off a d c) s = readPort d s := by
  show execRead off a d c s = _
  rw [execRead, gated_pass h, if_pos hp]

theorem exec_read_memory {off : Word} {a d : Reg} (hp : effectiveAddress a off s ≠ ioAddr) :
    exec (.read off a d c) s = withLoaded (effectiveAddress a off s) s fun v => s.setReg d v := by
  show execRead off a d c s = _
  rw [execRead, gated_pass h, if_neg hp]

theorem exec_write_port {off : Word} {a b : Reg} (hp : effectiveAddress a off s = ioAddr) :
    exec (.write off a b c) s = .next (s.emit ((s.reg b).extractLsb' 0 8)).advance := by
  show execWrite off a b c s = _
  rw [execWrite, gated_pass h, if_pos hp, complete]

theorem exec_write_memory {off : Word} {a b : Reg} (hp : effectiveAddress a off s ≠ ioAddr) :
    exec (.write off a b c) s = withStored (effectiveAddress a off s) (s.reg b) s fun s' => s' := by
  show execWrite off a b c s = _
  rw [execWrite, gated_pass h, if_neg hp]

theorem exec_push (a : Reg) :
    exec (.push a c) s =
      withStored (pushAddress s) (s.reg a) s fun s' => s'.setReg spReg (pushAddress s) := by
  show execPush a c s = _
  rw [execPush, gated_pass h]

theorem exec_pop (d : Reg) :
    exec (.pop d c) s =
      withLoaded (popAddress s) s fun v =>
        (s.setReg d v).setReg spReg ((s.setReg d v).reg spReg + stackStep) := by
  show execPop d c s = _
  rw [execPop, gated_pass h]

theorem exec_halt : exec (.halt c) s = .next s.setHalted := by
  show execHalt c s = _
  rw [execHalt, gated_pass h]

end pass

/-- `???` raises IllegalInstruction whatever its condition (41_arithmetic.md R128). -/
theorem exec_unassigned (f : ArithFields) (c : Cond) (s : State) :
    exec (.unassigned f c) s = .next (s.recordFault .illegalInstruction (encodeArith 4 f c)) := rfl

/-! ## Loads and stores that go through, and that do not -/

theorem withLoaded_ok {addr : Word} {s : State} {use : Word → State} (h : memOk s.cfg .read addr = true) :
    withLoaded addr s use = .next (use (s.mem.readWord s.cfg.byteOrder addr.toNat)).advance := by
  simp [withLoaded, memRead, h, complete]

theorem withLoaded_fault {addr : Word} {s : State} {use : Word → State} (h : memOk s.cfg .read addr = false) :
    withLoaded addr s use = .next (s.recordFault .memoryFault addr) := by
  simp [withLoaded, memRead, h, raise]

theorem withStored_ok {addr v : Word} {s : State} {use : State → State} (h : memOk s.cfg .write addr = true) :
    withStored addr v s use = .next (use (s.storeWord addr v)).advance := by
  simp [withStored, memWrite, h, complete]

theorem withStored_fault {addr v : Word} {s : State} {use : State → State} (h : memOk s.cfg .write addr = false) :
    withStored addr v s use = .next (s.recordFault .memoryFault addr) := by
  simp [withStored, memWrite, h, raise]

/-- The port is no memory (20_memory.md R44). -/
theorem memOk_ioAddr (cfg : Config) (op : MemOp) : memOk cfg op ioAddr = false := by
  simp [memOk]

end Sys2Proof.Machine
end

