-- ==== Sys2Proof/Laws/PerInstr.lean ====
section
/-! SUPPORT. Family `EncodesToRow`: the word the encoder writes for an instruction selects a row of spec/opcode_table.json
with the instruction's mnemonic (30_encoding.md R83). One lemma per constructor. -/

namespace Sys2Proof.Laws.EncodesToRow

/-- The word of `i` selects, first of all rows, a row of `i`'s mnemonic. -/
def Statement (i : Instr) : Prop := (opcodeRowOf (encode i)).map (·.mnemonic) = some i.mnemonic

/-- The mnemonic of the row that the three tested fields select. -/
def rowName (top sel slot : BitVec 4) : Option String := (opcodeRowOf (testedWord top sel slot)).map (·.mnemonic)

theorem statement_of_rowName {i : Instr}
    (h : rowName ((encode i).extractLsb' 28 4) ((encode i).extractLsb' 22 4) ((encode i).extractLsb' 4 4)
      = some i.mnemonic) : Statement i := by
  unfold Statement
  rw [opcodeRowOf_eq]
  exact h

/-- The top four bits of a format A word: 0 and the opcode. -/
theorem encodeArith_top (op : BitVec 3) (f : ArithFields) (c : Cond) :
    (encodeArith op f c).extractLsb' 28 4 = 0#1 ++ op := by
  unfold encodeArith
  repeat rw [extract_append_high _ _ _ (by decide)]
  exact extract_whole _

theorem row_or : ∀ sel slot, rowName (0#1 ++ 0#3) sel slot = some "OR" := by decide

theorem or (f : ArithFields) (c : Cond) : Statement (.or f c) :=
  statement_of_rowName (by rw [show encode (.or f c) = encodeArith 0 f c from rfl, encodeArith_top]; exact row_or _ _)

theorem row_xor : ∀ sel slot, rowName (0#1 ++ 1#3) sel slot = some "XOR" := by decide

theorem xor (f : ArithFields) (c : Cond) : Statement (.xor f c) :=
  statement_of_rowName (by rw [show encode (.xor f c) = encodeArith 1 f c from rfl, encodeArith_top]; exact row_xor _ _)

theorem row_and : ∀ sel slot, rowName (0#1 ++ 2#3) sel slot = some "AND" := by decide

theorem and (f : ArithFields) (c : Cond) : Statement (.and f c) :=
  statement_of_rowName (by rw [show encode (.and f c) = encodeArith 2 f c from rfl, encodeArith_top]; exact row_and _ _)

theorem row_andn : ∀ sel slot, rowName (0#1 ++ 3#3) sel slot = some "ANDN" := by decide

theorem andn (f : ArithFields) (c : Cond) : Statement (.andn f c) :=
  statement_of_rowName (by rw [show encode (.andn f c) = encodeArith 3 f c from rfl, encodeArith_top]; exact row_andn _ _)

theorem row_unassigned : ∀ sel slot, rowName (0#1 ++ 4#3) sel slot = some "???" := by decide

theorem unassigned (f : ArithFields) (c : Cond) : Statement (.unassigned f c) :=
  statement_of_rowName (by rw [show encode (.unassigned f c) = encodeArith 4 f c from rfl, encodeArith_top]; exact row_unassigned _ _)

theorem row_rol : ∀ sel slot, rowName (0#1 ++ 5#3) sel slot = some "ROL" := by decide

theorem rol (f : ArithFields) (c : Cond) : Statement (.rol f c) :=
  statement_of_rowName (by rw [show encode (.rol f c) = encodeArith 5 f c from rfl, encodeArith_top]; exact row_rol _ _)

theorem row_add : ∀ sel slot, rowName (0#1 ++ 6#3) sel slot = some "ADD" := by decide

theorem add (f : ArithFields) (c : Cond) : Statement (.add f c) :=
  statement_of_rowName (by rw [show encode (.add f c) = encodeArith 6 f c from rfl, encodeArith_top]; exact row_add _ _)

theorem row_sub : ∀ sel slot, rowName (0#1 ++ 7#3) sel slot = some "SUB" := by decide

theorem sub (f : ArithFields) (c : Cond) : Statement (.sub f c) :=
  statement_of_rowName (by rw [show encode (.sub f c) = encodeArith 7 f c from rfl, encodeArith_top]; exact row_sub _ _)

/-- The top four bits of a format H word are 10 and two bits of the constant. -/
theorem row_ldhi : ∀ (x : BitVec 2) (sel slot : BitVec 4), rowName (0b10#2 ++ x) sel slot = some "LDHI" := by decide

theorem ldhi (k : Word) (d : Reg) (c : Cond) : Statement (.ldhi k d c) := by
  apply statement_of_rowName
  have h : (encode (.ldhi k d c)).extractLsb' 28 4 = 0b10#2 ++ k.extractLsb' 20 2 := by
    apply BitVec.eq_of_getLsbD_eq
    intro i hi
    simp only [encode, BitVec.getLsbD_extractLsb', BitVec.getLsbD_append]
    interval_cases i <;> simp
  rw [h]
  exact row_ldhi _ _ _

/-- The tested fields of a format M word that the encoder writes. -/
theorem row_memory {i : Instr} {sel slot : BitVec 4} (h1 : (encode i).extractLsb' 28 4 = 0b1100#4)
    (h2 : (encode i).extractLsb' 22 4 = sel) (h3 : (encode i).extractLsb' 4 4 = slot)
    (h : rowName 0b1100#4 sel slot = some i.mnemonic) : Statement i :=
  statement_of_rowName (by rw [h1, h2, h3]; exact h)

theorem read (off : Word) (a d : Reg) (c : Cond) : Statement (.read off a d c) := by
  refine row_memory (sel := 0#4) (slot := d) ?_ ?_ ?_ ?_
  iterate 3
    apply BitVec.eq_of_getLsbD_eq
    intro i hi
    simp only [encode, BitVec.getLsbD_extractLsb', BitVec.getLsbD_append]
    interval_cases i <;> simp
  revert d
  simp only [Instr.mnemonic]
  decide

theorem write (off : Word) (a b : Reg) (c : Cond) : Statement (.write off a b c) := by
  refine row_memory (sel := 8#4) (slot := 0#4) ?_ ?_ ?_ ?_
  iterate 3
    apply BitVec.eq_of_getLsbD_eq
    intro i hi
    simp only [encode, BitVec.getLsbD_extractLsb', BitVec.getLsbD_append]
    interval_cases i <;> simp
  simp only [Instr.mnemonic]
  decide

theorem push (a : Reg) (c : Cond) : Statement (.push a c) := by
  refine row_memory (sel := 1#4) (slot := 0#4) ?_ ?_ ?_ ?_
  iterate 3
    apply BitVec.eq_of_getLsbD_eq
    intro i hi
    simp only [encode, BitVec.getLsbD_extractLsb', BitVec.getLsbD_append]
    interval_cases i <;> simp
  simp only [Instr.mnemonic]
  decide

theorem pop (d : Reg) (c : Cond) : Statement (.pop d c) := by
  refine row_memory (sel := 4#4) (slot := d) ?_ ?_ ?_ ?_
  iterate 3
    apply BitVec.eq_of_getLsbD_eq
    intro i hi
    simp only [encode, BitVec.getLsbD_extractLsb', BitVec.getLsbD_append]
    interval_cases i <;> simp
  revert d
  simp only [Instr.mnemonic]
  decide

theorem halt (c : Cond) : Statement (.halt c) := by
  refine row_memory (sel := 2#4) (slot := 0#4) ?_ ?_ ?_ ?_
  iterate 3
    apply BitVec.eq_of_getLsbD_eq
    intro i hi
    simp only [encode, BitVec.getLsbD_extractLsb', BitVec.getLsbD_append]
    interval_cases i <;> simp
  simp only [Instr.mnemonic]
  decide

end Sys2Proof.Laws.EncodesToRow
end

