-- ==== Sys2Proof/Tests/Slice0.lean ====
section
/-! SUPPORT. Tests of the model against the words and vectors of 95_test_vectors.md (named in each docstring), and for
every obligation with hypotheses a witness that they can be met. -/

namespace Sys2Proof.Tests

open Sys2Proof Sys2Proof.Machine

/-! ## Small states -/

/-- A machine as 95_test_vectors.md part 2.5 assumes it: memory at 0x1000 to 0x1FFF, these registers and flags. -/
def machine (regs : List (Reg × Word)) (flags : Flags := ⟨false, false, false, false⟩) : State :=
  regs.foldl (fun s p => s.setReg p.1 p.2)
    { State.reset with flags := flags, cfg := { State.reset.cfg with memMap := [⟨0x1000, 0x400⟩] } }

/-- One step with the word `w` supplied at the pc. -/
def stepped (w : Nat) (s : State) : Option State :=
  match step (s.withFetchWord 32 w) with
  | .next t => some t
  | .fault _ => none
  | .refused _ => none

/-- What a test looks at after a step. -/
def seen {α : Type} (look : State → α) (w : Nat) (s : State) : Option α := (stepped w s).map look

/-! ## WellFormed: an ill-formed term for each check -/

/-- An Arithmetic immediate of 512 fits no 10-bit field (30_encoding.md R76). -/
theorem test_wellFormed_imm : (Instr.add ⟨false, false, 512#32, 0#4, 0#4, 0#4⟩ .t).wellFormed = false := by decide
/-- A READ offset of 64 would change the selector (R67). -/
theorem test_wellFormed_read : (Instr.read 64#32 0#4 0#4 .t).wellFormed = false := by decide
/-- A WRITE offset of −448 would change the selector (R67). -/
theorem test_wellFormed_write : (Instr.write 0xFFFFFE40#32 0#4 0#4 .t).wellFormed = false := by decide
/-- A constant of 23 bits fits no LDHI (R77). -/
theorem test_wellFormed_ldhi : (Instr.ldhi 0x400000#32 0#4 .t).wellFormed = false := by decide

/-! ## Decode: the words of 95_test_vectors.md part 2.1 and of single encodings -/

/-- `0 000 0 1 0000000000 0001 0010 0011 1111`, OR R1, R2, R3 (30_encoding.md R63). -/
theorem test_decode_or : decode 0b00000100000000000001001000111111#32 = .or ⟨false, true, 0#32, 1#4, 2#4, 3#4⟩ .t := by
  decide
/-- 0x1C00111F, XORf R1, R1, R1 (program P5). -/
theorem test_decode_xor : decode 0b00011100000000000001000100011111#32 = .xor ⟨true, true, 0#32, 1#4, 1#4, 1#4⟩ .t := by
  decide
/-- 0x2000022F, AND 0x0, R2, R2 (program P1). -/
theorem test_decode_and : decode 0b00100000000000000000001000101111#32 = .and ⟨false, false, 0#32, 0#4, 2#4, 2#4⟩ .t := by
  decide
/-- 0x3BFF023F, ANDNf 0xffffffff, R2, R3. -/
theorem test_decode_andn :
    decode 0b00111011111111110000001000111111#32 = .andn ⟨true, false, 0xFFFFFFFF#32, 0#4, 2#4, 3#4⟩ .t := by decide
/-- 0x4D55123E, `???f.F`: the immediate is carried along. -/
theorem test_decode_unassigned :
    decode 0b01001101010101010001001000111110#32 = .unassigned ⟨true, true, 0x155#32, 1#4, 2#4, 3#4⟩ .f := by decide
/-- Opcode 5, immediate 31, regB 2, regD 3, condition 0. -/
theorem test_decode_rol : decode 0b01010000000111110000001000110000#32 = .rol ⟨false, false, 31#32, 0#4, 2#4, 3#4⟩ .e := by
  decide
/-- 0x60010111, ADD.NE 0x1, R1, R1. -/
theorem test_decode_add : decode 0b01100000000000010000000100010001#32 = .add ⟨false, false, 1#32, 0#4, 1#4, 1#4⟩ .ne := by
  decide
/-- 0x7805023F, SUBf 0x5, R2, R3. -/
theorem test_decode_sub : decode 0b01111000000001010000001000111111#32 = .sub ⟨true, false, 5#32, 0#4, 2#4, 3#4⟩ .t := by
  decide
/-- 0x80000170, LDHI.E 0x400, R7. -/
theorem test_decode_ldhi : decode 0b10000000000000000000000101110000#32 = .ldhi 1#32 7#4 .e := by decide
/-- 0xC000F23F and 0xC03F023F, READ; `w[15:12]` is ignored. -/
theorem test_decode_read :
    decode 0b11000000000000001111001000111111#32 = .read 0#32 2#4 3#4 .t ∧
    decode 0b11000000001111110000001000111111#32 = .read 0x3F#32 2#4 3#4 .t := by decide
/-- 0xC23F510F, WRITE R5, [R1 + 0xfffffe3f]. -/
theorem test_decode_write : decode 0b11000010001111110101000100001111#32 = .write 0xFFFFFE3F#32 1#4 5#4 .t := by decide
/-- 0xC040E00F and the alias 0xC20C57EF. -/
theorem test_decode_push :
    decode 0b11000000010000001110000000001111#32 = .push 14#4 .t ∧
    decode 0b11000010000011000101011111101111#32 = .push 5#4 .t := by decide
/-- 0xC1000063, POP.LU R6. -/
theorem test_decode_pop : decode 0b11000001000000000000000001100011#32 = .pop 6#4 .lu := by decide
/-- One word of each of the four HALT rows: selectors 0010, 0101, 1001, 1100. -/
theorem test_decode_halt :
    decode 0xC0800000#32 = .halt .e ∧ decode 0xC140000F#32 = .halt .t ∧ decode 0xC240000F#32 = .halt .t ∧
    decode 0xC300000F#32 = .halt .t := by decide
/-- 0xFC00000F: `w[29:26]` is ignored, selector 0000. -/
theorem test_decode_ignored_high_bits : decode 0xFC00000F#32 = .read 0#32 0#4 0#4 .t := by decide
/-- The encoder's words. -/
theorem test_encode :
    encode (.sub ⟨true, false, 5#32, 0#4, 2#4, 3#4⟩ .t) = 0x7805023F#32 ∧
    encode (.ldhi 0x048D15#32 1#4 .t) = 0x848D151F#32 ∧ encode (.read 4#32 1#4 4#4 .ne) = 0xC0040141#32 ∧
    encode (.write 0xFFFFFE04#32 1#4 5#4 .t) = 0xC204510F#32 ∧ encode (.push 14#4 .t) = 0xC040E00F#32 ∧
    encode (.pop 6#4 .lu) = 0xC1000063#32 ∧ encode (.halt .e) = 0xC0800000#32 := by decide
/-- The host's numbering: 32 bits are the word itself, fewer bits leave the rest 0, more are refused. -/
theorem test_decodeTableWord :
    decodeTableWord 32 0xC1000063 = some (.pop 6#4 .lu) ∧ decodeTableWord 8 0xFF = some (decode 0xFF#32) ∧
    decodeTableWord 40 0 = none := by decide
/-- The class and `dec_illegal` (10_state.md R34). -/
theorem test_ports :
    (decodePorts 0x4D55123E#32).decIllegal = true ∧ (decodePorts 0x4D55123E#32).decClass = 0#3 ∧
    (decodePorts 0xC0040141#32).decClass = 2#3 ∧ (decodePorts 0xC0040141#32).decIllegal = false := by decide

/-! ## One step: the vectors of parts 2.3 to 2.7 -/

/-- OR FFFFFE00, 00000123. -/
theorem test_or : seen (fun t => (t.reg 2#4, t.flags)) 0x0A00012F (machine [(1#4, 0x123#32)]) =
    some (0xFFFFFF23#32, ⟨true, false, false, false⟩) := by decide
/-- The first instruction after reset runs and the pc advances. -/
theorem test_or_from_reset : seen (fun t => (t.reg 3#4, t.pc)) 0x0001013F State.reset = some (1#32, 4#32) := by decide
/-- XOR AAAAAAAA, 55555555. -/
theorem test_xor :
    seen (fun t => (t.reg 3#4, t.flags)) 0x1C00123F (machine [(1#4, 0xAAAAAAAA#32), (2#4, 0x55555555#32)]) =
      some (0xFFFFFFFF#32, ⟨true, false, false, false⟩) := by decide
/-- AND F0F0F0F0, 0FF00FF0. -/
theorem test_and :
    seen (fun t => (t.reg 3#4, t.flags)) 0x2C00123F
      (machine [(1#4, 0xF0F0F0F0#32), (2#4, 0x0FF00FF0#32)] ⟨true, true, true, true⟩) =
      some (0x00F000F0#32, ⟨false, false, false, false⟩) := by decide
/-- ANDN FFFFFFFF, 0000FFFF complements B. -/
theorem test_andn : seen (fun t => (t.reg 3#4, t.flags)) 0x3BFF023F (machine [(2#4, 0xFFFF#32)]) =
    some (0xFFFF0000#32, ⟨true, false, false, false⟩) := by decide
/-- `???` with a condition that never holds raises IllegalInstruction(4D55123E) and leaves the pc. -/
theorem test_unassigned : seen (fun t => (t.fault, t.pc, t.reg 3#4)) 0x4D55123E (machine [(3#4, 7#32)]) =
    some (some ⟨.illegalInstruction, 0x4D55123E#32⟩, 0#32, 7#32) := by decide
/-- ROL 00000004, 12345678. -/
theorem test_rol : seen (fun t => (t.reg 3#4, t.flags)) 0x5804023F (machine [(2#4, 0x12345678#32)]) =
    some (0x23456781#32, ⟨false, false, true, false⟩) := by decide
/-- ROL FFFFFFFF, 40000000 rotates by 31. -/
theorem test_rol_31 : seen (fun t => (t.reg 3#4, t.flags)) 0x5BFF023F (machine [(2#4, 0x40000000#32)]) =
    some (0x20000000#32, ⟨false, false, false, false⟩) := by decide
/-- ADD 7FFFFFFF, 00000001 (V2). -/
theorem test_add :
    seen (fun t => (t.reg 3#4, t.flags)) 0x6C00123F (machine [(1#4, 0x7FFFFFFF#32), (2#4, 1#32)]) =
      some (0x80000000#32, ⟨true, false, false, true⟩) := by decide
/-- ADD 80000000, 80000000 with the destination a source. -/
theorem test_add_wraps : seen (fun t => (t.reg 1#4, t.flags)) 0x6C00111F (machine [(1#4, 0x80000000#32)]) =
    some (0#32, ⟨false, true, true, true⟩) := by decide
/-- SUB 00000003, 00000005. -/
theorem test_sub : seen (fun t => (t.reg 3#4, t.flags)) 0x7803023F (machine [(2#4, 5#32)]) =
    some (0xFFFFFFFE#32, ⟨true, false, false, false⟩) := by decide
/-- SUB 80000000, 00000001. -/
theorem test_sub_overflows :
    seen (fun t => (t.reg 3#4, t.flags)) 0x7C00123F (machine [(1#4, 0x80000000#32), (2#4, 1#32)]) =
      some (0x7FFFFFFF#32, ⟨false, false, true, true⟩) := by decide
/-- LDHI 048D15. -/
theorem test_ldhi : seen (fun t => t.reg 1#4) 0x848D151F (machine []) = some 0x12345400#32 := by decide
/-- READ R3, [R2] of DEADBEEF. -/
theorem test_read :
    seen (fun t => t.reg 3#4) 0xC000023F ((machine [(2#4, 0x1000#32)]).storeWord 0x1000#32 0xDEADBEEF#32) =
      some 0xDEADBEEF#32 := by decide
/-- READ R3, [R2 + 0x4] of the port, the address wrapping to it: zero-extended. -/
theorem test_read_port :
    seen (fun t => (t.reg 3#4, t.input)) 0xC004023F ((machine [(2#4, 0xFFFFFDFC#32)]).withInput [0xFF#8, 0x69#8]) =
      some (0xFF#32, [0x69#8]) := by decide
/-- C200500F with x[0] = 1400 stores at 1200; no output. -/
theorem test_write :
    seen (fun t => (t.mem.readWord .little 0x1200, t.output)) 0xC200500F
      (machine [(0#4, 0x1400#32), (5#4, 0x12345641#32)]) = some (0x12345641#32, []) := by decide
/-- C204510F with x[1] = FFFFFFFC emits 0A. -/
theorem test_write_port :
    seen (fun t => (t.output, t.mem)) 0xC204510F (machine [(1#4, 0xFFFFFFFC#32), (5#4, 0x30A#32)]) =
      some ([0x0A#8], []) := by decide
/-- PUSH R14 stores the old stack pointer. -/
theorem test_push :
    seen (fun t => (t.mem.readWord .little 0x1FFC, t.reg 14#4)) 0xC040E00F (machine [(14#4, 0x2000#32)]) =
      some (0x2000#32, 0x1FFC#32) := by decide
/-- PUSH at the port raises MemoryFault(FFFFFE00); no output byte. -/
theorem test_push_at_port :
    seen (fun t => (t.fault, t.output, t.reg 14#4)) 0xC040500F (machine [(14#4, 0xFFFFFE04#32)]) =
      some (some ⟨.memoryFault, 0xFFFFFE00#32⟩, [], 0xFFFFFE04#32) := by decide
/-- POP R14: the loaded word plus 4. -/
theorem test_pop_sp :
    seen (fun t => t.reg 14#4) 0xC10000EF ((machine [(14#4, 0x1FFC#32)]).storeWord 0x1FFC#32 0x1800#32) =
      some 0x1804#32 := by decide
/-- POP.LU R6 with C = 1 is skipped whatever the stack pointer is. -/
theorem test_pop_skipped :
    seen (fun t => (t.fault, t.reg 14#4, t.pc)) 0xC1000063 (machine [(14#4, 1#32)] ⟨false, false, true, false⟩) =
      some (none, 1#32, 4#32) := by decide
/-- HALT stops at its own address; HALT.E with Z = 0 goes on. -/
theorem test_halt :
    seen (fun t => (t.halted, t.pc)) 0xFFFFFFFF (machine []) = some (true, 0#32) ∧
    seen (fun t => (t.halted, t.pc)) 0xC0800000 (machine []) = some (false, 4#32) := by decide
/-- Both byte orders store and load one word alike; the bytes lie the other way round. -/
theorem test_byte_order :
    (Memory.writeWord .little [] 0 0x11223344#32).readByte 0 = 0x44#8 ∧
    (Memory.writeWord .big [] 0 0x11223344#32).readByte 0 = 0x11#8 ∧
    (Memory.writeWord .big [] 0 0x11223344#32).readWord .big 0 = 0x11223344#32 := by decide

/-! ## Witnesses: the hypotheses of each obligation can be met -/

/-- A machine that reads the port, its input empty. -/
def portReader : State := machine [(1#4, 0xFFFFFDC1#32), (2#4, 0xFFFFFE00#32)]

/-- A running machine with `w` at its pc. -/
def running (w : Nat) (s : State := machine []) : State := s.withFetchWord 32 w

theorem witness_DecodeOfEncode :
    (Instr.or ⟨true, true, 511#32, 15#4, 15#4, 15#4⟩ .t).wellFormed = true ∧
    (Instr.or ⟨true, true, 0xFFFFFE00#32, 0#4, 0#4, 0#4⟩ .e).wellFormed = true ∧
    (Instr.ldhi 0x3FFFFF#32 15#4 .t).wellFormed = true ∧ (Instr.read 63#32 15#4 15#4 .t).wellFormed = true ∧
    (Instr.write 0xFFFFFE3F#32 15#4 15#4 .t).wellFormed = true ∧
    writeOffsetInRange 0xFFFFFE00#32 = true ∧ 15#4 ≠ 14#4 := by decide

theorem witness_FullWordsReencode :
    (0x7FFFFFFF#32)[31] = false ∧ (0xBFFFFFFF#32)[30] = false := by decide

theorem witness_DecodeFollowsOpcodeTable :
    (opcodeTable[10]?).map (·.selects 0xC20000E0#32) = some true ∧
    (opcodeTable[11]?).map (·.selects 0xC20000E0#32) = some true := by decide

theorem witness_IgnoredBitsDoNotMatter :
    opcodeRowOf 0xC000023F#32 = some ⟨"READ", 0xC0000000#32, 0xC3C00000#32, 0xC3FF0FFF#32⟩ ∧
    0xC000023F#32 &&& 0xC3FF0FFF#32 = 0xFC00F23F#32 &&& 0xC3FF0FFF#32 ∧
    (opcodeRowOf (encode (.push 5#4 .t))).isSome = true := by decide

theorem witness_PushAliasIsPush :
    0xC20C57EF#32 &&& 0xC3C000F0#32 = 0xC20000E0#32 ∧ 0xC040500F#32 &&& 0xC3C00000#32 = 0xC0400000#32 ∧
    (0xC040500F#32).extractLsb' 12 4 = (0xC20C57EF#32).extractLsb' 12 4 ∧
    (0xC040500F#32).extractLsb' 0 4 = (0xC20C57EF#32).extractLsb' 0 4 := by decide

theorem witness_ImmediatesAreSignExtended :
    (decode 0x3BFF023F#32).arithFields? = some ⟨true, false, 0xFFFFFFFF#32, 0#4, 2#4, 3#4⟩ ∧
    decode 0xC03F023F#32 = .read 63#32 2#4 3#4 .t ∧ decode 0xC23F510F#32 = .write 0xFFFFFE3F#32 1#4 5#4 .t := by decide

theorem witness_ConditionsCompareAfterSub :
    (⟨true, false, 3#32, 0#4, 2#4, 3#4⟩ : ArithFields).setFlags = true ∧ condPass .t (machine [(2#4, 5#32)]) = true ∧
    (machine [(2#4, 5#32)]).cfg.condTable = defaultCondTable := by decide

theorem witness_FailedConditionDoesNothing :
    condPass (Instr.write 0#32 0#4 0#4 .f).cond (machine []) = false ∧ condPass .e (machine []) = false := by decide

/-- One word of each Arithmetic opcode, of LDHI, POP, PUSH, the four HALT rows, and a passing condition: the hypotheses
of the instruction statements that have no other. -/
theorem witness_instructions :
    condPass .t (machine []) = true ∧
    0x0FFFFFFF#32 &&& 0xF0000000#32 = 0x00000000#32 ∧ 0x1FFFFFFF#32 &&& 0xF0000000#32 = 0x10000000#32 ∧
    0x2FFFFFFF#32 &&& 0xF0000000#32 = 0x20000000#32 ∧ 0x3FFFFFFF#32 &&& 0xF0000000#32 = 0x30000000#32 ∧
    0x4FFFFFFF#32 &&& 0xF0000000#32 = 0x40000000#32 ∧ 0x5FFFFFFF#32 &&& 0xF0000000#32 = 0x50000000#32 ∧
    0x6FFFFFFF#32 &&& 0xF0000000#32 = 0x60000000#32 ∧ 0x7FFFFFFF#32 &&& 0xF0000000#32 = 0x70000000#32 ∧
    0xBFFFFFFF#32 &&& 0xC0000000#32 = 0x80000000#32 ∧ 0xFC7FFFFF#32 &&& 0xC3C00000#32 = 0xC0400000#32 ∧
    0xFD3FFFFF#32 &&& 0xC3C00000#32 = 0xC1000000#32 ∧ 0xFFFFFFFF#32 &&& 0xC0800000#32 = 0xC0800000#32 ∧
    0xFF7FFFFF#32 &&& 0xC1C00000#32 = 0xC1400000#32 ∧ 0xFE7FFFFF#32 &&& 0xC3C00000#32 = 0xC2400000#32 ∧
    0xFF3FFFFF#32 &&& 0xC3C00000#32 = 0xC3000000#32 := by decide

/-- ANDN's two values of the parameter, each in a machine where the condition passes. -/
theorem witness_AndnInstruction :
    (machine []).cfg.andnComplements = .b ∧ condPass .t (machine []) = true ∧
    ({ machine [] with cfg := { (machine []).cfg with andnComplements := .a } } : State).cfg.andnComplements = .a ∧
    condPass .t ({ machine [] with cfg := { (machine []).cfg with andnComplements := .a } } : State) = true := by decide

/-- The first and last illegal word, and the words beside them. -/
theorem witness_IllegalInstructionWords :
    (running 0x40000000).running = true ∧ fetch (running 0x40000000) = some 0x40000000#32 ∧
    fetch (running 0x4FFFFFFF) = some 0x4FFFFFFF#32 ∧ fetch (running 0x3FFFFFFF) = some 0x3FFFFFFF#32 ∧
    fetch (running 0x50000000) = some 0x50000000#32 ∧ (stepped 0x50000000 (machine [])).isSome = true := by decide

/-- FlagsRule: ANDf writes flags, from two flag states in which it passes; ADD without setFlags keeps both. -/
theorem witness_FlagsRule :
    seen (·.flags) 0x2800001F (machine []) = some ⟨false, true, false, false⟩ ∧
    (decode 0x2800001F#32).arithFields? = some ⟨true, false, 0#32, 0#4, 0#4, 1#4⟩ ∧
    condPass (decode 0x2800001F#32).cond (machine []) = true ∧
    condPass (decode 0x2800001F#32).cond (machine [] ⟨true, true, true, true⟩) = true ∧
    (decode 0x6001011F#32).arithFields? = some ⟨false, false, 1#32, 0#4, 1#4, 1#4⟩ ∧
    condPass (decode 0x6001011F#32).cond (machine [] ⟨true, true, true, true⟩) =
      condPass (decode 0x6001011F#32).cond (machine []) ∧
    (stepped 0x6001011F (machine [])).isSome = true := by decide

theorem witness_AddressesWrap : (machine [(1#4, 0xFFFFFFFC#32)]).reg 1#4 = 0xFFFFFFFC#32 := by decide

/-- READ: the last word of memory, the port with a byte and without, the first address above memory, a misaligned
address, and the boundary offsets. -/
theorem witness_ReadInstruction :
    0xFC3FFFFF#32 &&& 0xC3C00000#32 = 0xC0000000#32 ∧ condPass .t (machine [(2#4, 0x1FFC#32)]) = true ∧
    effectiveAddress 2#4 0#32 (machine [(2#4, 0x1FFC#32)]) ≠ 0xFFFFFE00#32 ∧
    memOk (machine []).cfg .read (effectiveAddress 2#4 0#32 (machine [(2#4, 0x1FFC#32)])) = true ∧
    condPass .t portReader = true ∧ effectiveAddress 1#4 63#32 portReader = 0xFFFFFE00#32 ∧ portReader.input = [] ∧
    (portReader.withInput [0x68#8]).input = 0x68#8 :: [] ∧
    effectiveAddress 2#4 0#32 (machine [(2#4, 0x2000#32)]) ≠ 0xFFFFFE00#32 ∧
    memOk (machine []).cfg .read (effectiveAddress 2#4 0#32 (machine [(2#4, 0x2000#32)])) = false ∧
    memOk (machine []).cfg .read (effectiveAddress 2#4 63#32 (machine [(2#4, 0x1000#32)])) = false := by decide

theorem witness_WriteInstruction :
    0xFE3FFFFF#32 &&& 0xC3C00000#32 = 0xC2000000#32 ∧ (0xFE3FFFFF#32).extractLsb' 4 4 ≠ 14#4 ∧
    condPass .t (machine [(0#4, 0x21FC#32)]) = true ∧
    effectiveAddress 0#4 0xFFFFFE00#32 (machine [(0#4, 0x21FC#32)]) ≠ 0xFFFFFE00#32 ∧
    memOk (machine []).cfg .write (effectiveAddress 0#4 0xFFFFFE00#32 (machine [(0#4, 0x21FC#32)])) = true ∧
    effectiveAddress 0#4 0xFFFFFE00#32 (machine []) = 0xFFFFFE00#32 ∧
    effectiveAddress 0#4 0xFFFFFE00#32 (machine [(0#4, 0x2200#32)]) ≠ 0xFFFFFE00#32 ∧
    memOk (machine []).cfg .write (effectiveAddress 0#4 0xFFFFFE00#32 (machine [(0#4, 0x2200#32)])) = false := by decide

theorem witness_WordAccessRules :
    (memWrite (machine []) 0x1FFC#32 5#32).isSome = true ∧ memOk (machine []).cfg .read 0x1FFC#32 = true ∧
    0x1000#32 ≠ 0x1FFC#32 := by decide

theorem witness_EqualMemoriesAreEqualData : Memory.wf [(0x1000, 1#8), (0xFFFFFFFF, 255#8)] := by decide

theorem witness_PushInstruction :
    condPass .t (machine [(14#4, 0x2000#32)]) = true ∧
    memOk (machine []).cfg .write (pushAddress (machine [(14#4, 0x2000#32)])) = true ∧
    condPass .t (machine [(14#4, 0x1000#32)]) = true ∧
    memOk (machine []).cfg .write (pushAddress (machine [(14#4, 0x1000#32)])) = false ∧
    condPass .t (machine [(14#4, 0xFFFFFE04#32)]) = true ∧
    pushAddress (machine [(14#4, 0xFFFFFE04#32)]) = 0xFFFFFE00#32 := by decide

theorem witness_PopInstruction :
    condPass .t (machine [(14#4, 0x1FFC#32)]) = true ∧
    memOk (machine []).cfg .read (popAddress (machine [(14#4, 0x1FFC#32)])) = true ∧
    condPass .t (machine [(14#4, 0x2000#32)]) = true ∧
    memOk (machine []).cfg .read (popAddress (machine [(14#4, 0x2000#32)])) = false ∧
    condPass .t portReader = true ∧ popAddress (machine [(14#4, 0xFFFFFE00#32)]) = 0xFFFFFE00#32 := by decide

theorem witness_PushThenPopRestores :
    5#4 ≠ 14#4 ∧ condPass .t (machine [(14#4, 0x2000#32)]) = true ∧
    memOk (machine []).cfg .write (pushAddress (machine [(14#4, 0x2000#32)])) = true ∧
    memOk (machine []).cfg .read (pushAddress (machine [(14#4, 0x2000#32)])) = true := by decide

theorem witness_StepRunsDecodedInstruction :
    (running 0x60010111).running = true ∧ fetch (running 0x60010111) = some 0x60010111#32 ∧
    decode 0x60010111#32 = .add ⟨false, false, 1#32, 0#4, 1#4, 1#4⟩ .ne := by decide

/-- A state with memory listed, from which a step goes to a next state, and the invariant holds there. -/
theorem witness_StepKeepsInvariant :
    Inv (running 0xC040500F ((machine [(14#4, 0x2000#32)]).storeWord 0x1000#32 5#32)) ∧
    (stepped 0xC040500F ((machine [(14#4, 0x2000#32)]).storeWord 0x1000#32 5#32)).isSome = true :=
  ⟨⟨by decide, by decide, by decide, by decide⟩, by decide⟩

/-- A step that faults; a step that halts; a step that completes; a step that is stuck. -/
theorem witness_outcomes_of_a_step :
    (running 0xC040500F).running = true ∧ seen (·.fault.isSome) 0xC040500F (machine []) = some true ∧
    seen (·.halted) 0xC300000F (machine []) = some true ∧
    (running 0x60010111).waiting = false ∧
    seen (fun t => (t.halted, t.fault, t.pc)) 0x60010111 (machine []) = some (false, none, 4#32) ∧
    (running 0xC000023F portReader).waiting = true ∧ (machine []).waiting = true ∧
    (running 0xC000023F portReader).running = true := by decide

/-- The hypotheses of NoStepChangesNothing, OnlyHaltHalts and StoppedRunIsFinal. -/
theorem witness_stopped_machines :
    ((machine []).setHalted).halted = true ∧ ((machine []).recordFault .memoryFault 0#32).fault.isSome = true ∧
    ((machine []).setHalted).ended = true ∧ ((machine []).recordFault .memoryFault 0#32).goneWrong = true := by decide

/-- A MemoryFault of each of the four instructions that can raise one. -/
theorem witness_MemoryFaultOrigin :
    (machine []).fault = none ∧
    seen (·.fault) 0xC000023F (machine []) = some (some ⟨.memoryFault, 0#32⟩) ∧
    seen (·.fault) 0xC201510F (machine [(1#4, 0x1400#32)]) = some (some ⟨.memoryFault, 0x1201#32⟩) ∧
    seen (·.fault) 0xC040500F (machine [(14#4, 2#32)]) = some (some ⟨.memoryFault, 0xFFFFFFFE#32⟩) ∧
    seen (·.fault) 0xC100006F (machine [(14#4, 0x2000#32)]) = some (some ⟨.memoryFault, 0x2000#32⟩) := by decide

/-- Next states of the instructions the whole-machine statements name: a port READ and WRITE, a store, a PUSH. -/
theorem witness_exec_answers :
    (stepped 0xC000023F (portReader.withInput [1#8])).isSome = true ∧ (stepped 0xC200500F (machine [])).isSome = true ∧
    (stepped 0xC200500F (machine [(0#4, 0x1400#32)])).isSome = true ∧
    (stepped 0xC040500F (machine [(14#4, 0x2000#32)])).isSome = true := by decide

/-- A register outside both columns of an instruction's row. -/
theorem witness_RegisterFootprint :
    7#4 ∉ regsRead (.pop 6#4 .t) ∧ 7#4 ∉ regsWritten (.pop 6#4 .t) ∧
    1#4 ∉ regsRead (.add ⟨false, false, 0#32, 1#4, 2#4, 3#4⟩ .t) := by decide

/-- Constants of both kinds: K[9] = 0 and K[9] = 1, the last with an LDHI constant that wraps. -/
theorem witness_AnyConstantInTwoInstructions :
    (0x12345178#32)[9] = false ∧ (0xFFFFFFFF#32)[9] = true ∧ condPass .t (machine []) = true := by decide

end Sys2Proof.Tests
end

section
/-! PROOFS. O21, the rule for the flags (10_state.md R27, 41_arithmetic.md R129): a flag write makes the old flags
irrelevant, and every other execution commutes with replacing the flags. -/

namespace Sys2Proof.Machine

/-! ## Replacing the flags of an answer -/

/-- The same answer with other flags in its next state. -/
def resultWithFlags (old : Flags) : Result → Result
  | .next t => .next (t.commitFlags old)
  | .fault r => .fault r
  | .refused r => .refused r

@[simp] theorem resultWithFlags_next (old : Flags) (t : State) :
    resultWithFlags old (.next t) = .next (t.commitFlags old) := rfl

/-- Flags put in place of a state's own flags give the state back. -/
theorem State.commitFlags_self (s : State) : s.commitFlags s.flags = s := rfl

/-! ## The shared operations look at no flag but through the condition -/

section commute

variable {old : Flags} {c : Cond} {s : State}

theorem gated_commitFlags {effect : State → Result}
    (hc : condPass c (s.commitFlags old) = condPass c s)
    (he : effect (s.commitFlags old) = resultWithFlags old (effect s)) :
    gated c (s.commitFlags old) effect = resultWithFlags old (gated c s effect) := by
  cases hp : condPass c s with
  | true => rw [gated_pass (hc.trans hp), gated_pass hp, he]
  | false =>
    rw [gated_fail (hc.trans hp), gated_fail hp]
    rfl

theorem withLoaded_commitFlags {addr : Word} {use use' : Word → State}
    (huse : ∀ v, use' v = (use v).commitFlags old) :
    withLoaded addr (s.commitFlags old) use' = resultWithFlags old (withLoaded addr s use) := by
  cases hok : memOk s.cfg .read addr with
  | true =>
    rw [withLoaded_ok hok, withLoaded_ok (s := s.commitFlags old) hok, huse]
    rfl
  | false =>
    rw [withLoaded_fault hok, withLoaded_fault (s := s.commitFlags old) hok]
    rfl

theorem withStored_commitFlags {addr v : Word} {use : State → State}
    (huse : ∀ u : State, use (u.commitFlags old) = (use u).commitFlags old) :
    withStored addr v (s.commitFlags old) use = resultWithFlags old (withStored addr v s use) := by
  cases hok : memOk s.cfg .write addr with
  | true =>
    rw [withStored_ok hok, withStored_ok (s := s.commitFlags old) hok]
    exact congrArg complete (huse (s.storeWord addr v))
  | false =>
    rw [withStored_fault hok, withStored_fault (s := s.commitFlags old) hok]
    rfl

theorem readPort_commitFlags (d : Reg) :
    readPort d (s.commitFlags old) = resultWithFlags old (readPort d s) := by
  unfold readPort ioIn
  rw [State.commitFlags_input]
  cases s.input with
  | nil => rfl
  | cons b rest => rfl

theorem execRead_commitFlags (off : Word) (a d : Reg) (hc : condPass c (s.commitFlags old) = condPass c s) :
    execRead off a d c (s.commitFlags old) = resultWithFlags old (execRead off a d c s) := by
  refine gated_commitFlags hc ?_
  have haddr : effectiveAddress a off (s.commitFlags old) = effectiveAddress a off s := rfl
  rw [haddr]
  by_cases hp : effectiveAddress a off s = ioAddr
  · rw [if_pos hp, if_pos hp, readPort_commitFlags]
  · rw [if_neg hp, if_neg hp]
    exact withLoaded_commitFlags fun _ => rfl

theorem execWrite_commitFlags (off : Word) (a b : Reg) (hc : condPass c (s.commitFlags old) = condPass c s) :
    execWrite off a b c (s.commitFlags old) = resultWithFlags old (execWrite off a b c s) := by
  refine gated_commitFlags hc ?_
  have haddr : effectiveAddress a off (s.commitFlags old) = effectiveAddress a off s := rfl
  rw [haddr]
  by_cases hp : effectiveAddress a off s = ioAddr
  · rw [if_pos hp, if_pos hp]
    rfl
  · rw [if_neg hp, if_neg hp]
    exact withStored_commitFlags fun _ => rfl

theorem execLdhi_commitFlags (k : Word) (d : Reg) (hc : condPass c (s.commitFlags old) = condPass c s) :
    execLdhi k d c (s.commitFlags old) = resultWithFlags old (execLdhi k d c s) :=
  gated_commitFlags hc rfl

theorem execPush_commitFlags (a : Reg) (hc : condPass c (s.commitFlags old) = condPass c s) :
    execPush a c (s.commitFlags old) = resultWithFlags old (execPush a c s) :=
  gated_commitFlags hc <| withStored_commitFlags fun _ => rfl

theorem execPop_commitFlags (d : Reg) (hc : condPass c (s.commitFlags old) = condPass c s) :
    execPop d c (s.commitFlags old) = resultWithFlags old (execPop d c s) :=
  gated_commitFlags hc <| withLoaded_commitFlags fun _ => rfl

theorem execHalt_commitFlags (hc : condPass c (s.commitFlags old) = condPass c s) :
    execHalt c (s.commitFlags old) = resultWithFlags old (execHalt c s) :=
  gated_commitFlags hc rfl

end commute

/-! ## The Arithmetic instructions -/

/-- What the flag rule says of an ALU function that is logical: it delivers neither carry nor overflow. -/
def ClearsCarryAndOverflow (alu : Config → Word → Word → AluResult) : Prop :=
  ∀ cfg a b, (alu cfg a b).carry = false ∧ (alu cfg a b).overflow = false

/-- An instruction is one of the four logical functions (41_arithmetic.md R121 to R124). -/
def IsLogical (i : Instr) : Prop :=
  i.mnemonic = "OR" ∨ i.mnemonic = "XOR" ∨ i.mnemonic = "AND" ∨ i.mnemonic = "ANDN"

theorem aluAndn_clears (which : AndnOperand) (a b : Word) :
    (aluAndn which a b).carry = false ∧ (aluAndn which a b).overflow = false := by
  cases which <;> exact ⟨rfl, rfl⟩

/-- Every Arithmetic instruction but `???` is `execAlu` over one ALU function, which sees the state through its
operands and its parameters only. -/
theorem exists_exec_eq_execAlu {i : Instr} {f : ArithFields} (hf : i.arithFields? = some f)
    (hu : ∀ g c, i ≠ .unassigned g c) :
    ∃ alu : Config → Word → Word → AluResult,
      (∀ s, exec i s = execAlu (alu s.cfg) f i.cond s) ∧ (IsLogical i → ClearsCarryAndOverflow alu) := by
  cases i with
  | or g c => cases hf; exact ⟨fun _ => aluOr, fun _ => rfl, fun _ _ _ _ => ⟨rfl, rfl⟩⟩
  | xor g c => cases hf; exact ⟨fun _ => aluXor, fun _ => rfl, fun _ _ _ _ => ⟨rfl, rfl⟩⟩
  | and g c => cases hf; exact ⟨fun _ => aluAnd, fun _ => rfl, fun _ _ _ _ => ⟨rfl, rfl⟩⟩
  | andn g c => cases hf; exact ⟨fun cfg => aluAndn cfg.andnComplements, fun _ => rfl, fun _ _ => aluAndn_clears _⟩
  | unassigned g c => exact absurd rfl (hu g c)
  | rol g c => cases hf; exact ⟨fun _ => aluRol, fun _ => rfl, by simp [IsLogical, Instr.mnemonic]⟩
  | add g c => cases hf; exact ⟨fun _ => aluAdd, fun _ => rfl, by simp [IsLogical, Instr.mnemonic]⟩
  | sub g c => cases hf; exact ⟨fun _ => aluSub, fun _ => rfl, by simp [IsLogical, Instr.mnemonic]⟩
  | _ => cases hf

/-- A result stored with its flags leaves no trace of the flags before. -/
theorem storeResult_commitFlags_of_setFlags {f : ArithFields} (hset : f.setFlags = true) (x : AluResult) (s : State)
    (old : Flags) : storeResult f x (s.commitFlags old) = storeResult f x s := by
  rw [storeResult, storeResult, if_pos hset, if_pos hset]
  rfl

/-- A result stored without flags keeps whatever flags stand there. -/
theorem storeResult_commitFlags_of_not_setFlags {f : ArithFields} (hset : f.setFlags = false) (x : AluResult)
    (s : State) (old : Flags) : storeResult f x (s.commitFlags old) = (storeResult f x s).commitFlags old := by
  simp only [storeResult, hset, Bool.false_eq_true, if_false]
  rfl

/-- An Arithmetic instruction that writes no flags, for the setFlags bit or the condition, keeps any flags. -/
theorem execAlu_commitFlags {alu : Word → Word → AluResult} {f : ArithFields} {c : Cond} {s : State} {old : Flags}
    (hkeep : f.setFlags = true → condPass c s = false) (hc : condPass c (s.commitFlags old) = condPass c s) :
    execAlu alu f c (s.commitFlags old) = resultWithFlags old (execAlu alu f c s) := by
  cases hp : condPass c s with
  | false =>
    rw [execAlu, execAlu, gated_fail (hc.trans hp), gated_fail hp]
    rfl
  | true =>
    have hset : f.setFlags = false := by simpa [hp] using hkeep
    rw [execAlu_of_condPass (hc.trans hp), execAlu_of_condPass hp, storeResult_commitFlags_of_not_setFlags hset]
    rfl

/-- An Arithmetic instruction with setFlags answers the same next state whatever flags stood before. -/
theorem execAlu_of_setFlags {alu : Word → Word → AluResult} {f : ArithFields} {c : Cond} {s : State} {old : Flags}
    (hset : f.setFlags = true) (hp : condPass c s = true) (hp' : condPass c (s.commitFlags old) = true) :
    execAlu alu f c (s.commitFlags old) = execAlu alu f c s := by
  rw [execAlu_of_condPass hp', execAlu_of_condPass hp, storeResult_commitFlags_of_setFlags hset]
  rfl

/-! ## Who writes flags -/

/-- The instruction is one of the seven Arithmetic functions, with setFlags 1, and its condition passes. -/
def WritesFlags (i : Instr) (s : State) : Prop :=
  (∀ g c, i ≠ .unassigned g c) ∧ ∃ f, i.arithFields? = some f ∧ f.setFlags = true ∧ condPass i.cond s = true

/-- An instruction that writes no flags treats any two flag states alike under which its condition has one outcome:
its answer differs in the flags alone. -/
theorem exec_commitFlags_of_not_writesFlags {i : Instr} {s : State} {old : Flags} (h : ¬ WritesFlags i s)
    (hc : condPass i.cond (s.commitFlags old) = condPass i.cond s) :
    exec i (s.commitFlags old) = resultWithFlags old (exec i s) := by
  by_cases hu : ∃ g c, i = .unassigned g c
  · obtain ⟨g, c, rfl⟩ := hu
    rfl
  have hu : ∀ g c, i ≠ .unassigned g c := fun g c hi => hu ⟨g, c, hi⟩
  cases hf : i.arithFields? with
  | some f =>
    obtain ⟨alu, hexec, -⟩ := exists_exec_eq_execAlu hf hu
    have hkeep : f.setFlags = true → condPass i.cond s = false := fun hset =>
      Bool.eq_false_iff.2 fun hp => h ⟨hu, f, hf, hset, hp⟩
    rw [hexec, hexec]
    exact execAlu_commitFlags hkeep hc
  | none =>
    cases i with
    | ldhi k d c => exact execLdhi_commitFlags k d hc
    | read off a d c => exact execRead_commitFlags off a d hc
    | write off a b c => exact execWrite_commitFlags off a b hc
    | push a c => exact execPush_commitFlags a hc
    | pop d c => exact execPop_commitFlags d hc
    | halt c => exact execHalt_commitFlags hc
    | _ => cases hf

/-- An instruction that writes no flags leaves them as they are: replacing the flags by themselves is no change. -/
theorem flags_eq_of_not_writesFlags {i : Instr} {s t : State} (h : ¬ WritesFlags i s) (ht : exec i s = .next t) :
    t.flags = s.flags := by
  have hsame : exec i s = .next (t.commitFlags s.flags) := by
    simpa [ht, State.commitFlags_self] using exec_commitFlags_of_not_writesFlags (old := s.flags) h rfl
  have htt : t = t.commitFlags s.flags := by simpa [ht] using hsame
  rw [htt, State.commitFlags_flags]

/-- The next state of an instruction that writes flags: N and Z from what regD then holds, C and O cleared by a
logical function, the old flags gone. -/
theorem exec_of_writesFlags {i : Instr} {f : ArithFields} {s t : State} (hf : i.arithFields? = some f)
    (hu : ∀ g c, i ≠ .unassigned g c) (hset : f.setFlags = true) (hp : condPass i.cond s = true)
    (ht : exec i s = .next t) :
    t.flags.n = (t.reg f.regD)[31] ∧ t.flags.z = decide (t.reg f.regD = 0#32) ∧
    (IsLogical i → t.flags.c = false ∧ t.flags.o = false) ∧
    ∀ old : Flags, condPass i.cond (s.commitFlags old) = true → exec i (s.commitFlags old) = .next t := by
  obtain ⟨alu, hexec, hlogical⟩ := exists_exec_eq_execAlu hf hu
  have hold (old : Flags) (hp' : condPass i.cond (s.commitFlags old) = true) :
      exec i (s.commitFlags old) = .next t := by
    rw [← ht, hexec, hexec]
    exact execAlu_of_setFlags hset hp hp'
  rw [hexec, execAlu_of_condPass hp] at ht
  cases ht
  simp only [State.advance_flags, State.advance_reg, storeResult_flags, storeResult_reg, hset, if_true]
  exact ⟨rfl, rfl, fun hi => hlogical hi s.cfg _ _, hold⟩

/-- Settles O21: the answer of an instruction that writes flags is the same for all flags before, and the answer of
any other instruction carries the flags before along and nowhere else. -/
theorem flagsRule : Obligations.FlagsRule := by
  intro i s t ht
  refine ⟨fun hne => ?_, fun f hf hu hset hp => exec_of_writesFlags hf hu hset hp ht, fun hkeep old hc => ?_⟩
  · by_contra hw
    exact hne (flags_eq_of_not_writesFlags hw ht)
  · have hw : ¬ WritesFlags i s := by
      rintro ⟨hu, f, hf, hset, hp⟩
      rcases hkeep f hf hset with ⟨g, c, hi⟩ | hfail
      · exact hu g c hi
      · simp [hp] at hfail
    have hexec := exec_commitFlags_of_not_writesFlags (old := old) hw hc
    rwa [ht] at hexec

end Sys2Proof.Machine
end

section
/-! PROOFS. O5 and O7, the encoding (30_encoding.md): the decoder by the class of the word, the fields a masked
comparison fixes, the Push alias of the MemoryWrite shape (R70), and where each signed immediate comes from (R76). -/

namespace Sys2Proof

/-! ## The decoder by class -/

section classes

variable {w : Word}

theorem decode_arith (h31 : w[31] = false) :
    decode w = arithOfOpcode (w.extractLsb' 28 3) (arithFieldsOf w) (condOf w) := if_pos h31

theorem decode_loadHigh (h31 : w[31] = true) (h30 : w[30] = false) :
    decode w = .ldhi (zext22 (w.extractLsb' 8 22)) (w.extractLsb' 4 4) (condOf w) := by
  simp [decode, h31, h30]

theorem decode_memoryClass (h31 : w[31] = true) (h30 : w[30] = true) : decode w = decodeMemoryClass w := by
  simp [decode, h31, h30]

/-- The MemoryWrite selector with slot 14 is a Push (30_encoding.md R70). -/
theorem decodeMemoryClass_pushAlias (hsel : selectorOf w = 0b1000#4) (hslot : w.extractLsb' 4 4 = 14#4) :
    decodeMemoryClass w = .push (w.extractLsb' 12 4) (condOf w) := by
  simp [decodeMemoryClass, hsel, hslot]

/-- Selector `0001` is the ordinary Push (30_encoding.md R71). -/
theorem decodeMemoryClass_push (hsel : selectorOf w = 0b0001#4) :
    decodeMemoryClass w = .push (w.extractLsb' 12 4) (condOf w) := by
  simp [decodeMemoryClass, hsel]

end classes

/-! ## What a masked comparison fixes -/

section masked

variable {w m p : Word}

/-- A field that the mask covers is the pattern's. -/
theorem extract_eq_of_and_eq {i k : Nat} (h : w &&& m = p) (hm : m.extractLsb' i k = BitVec.allOnes k) :
    w.extractLsb' i k = p.extractLsb' i k := by
  rw [← h, BitVec.extractLsb'_and, hm, BitVec.and_allOnes]

/-- A bit that the mask covers is the pattern's. -/
theorem getElem_eq_of_and_eq {i : Nat} {hi : i < 32} (h : w &&& m = p) (hm : m[i] = true) : w[i] = p[i] := by
  simp [← h, hm]

/-- A masked comparison that fixes the two top bits to 11 selects the memory and system classes. -/
theorem decode_memoryClass_of_and_eq (h : w &&& m = p) (hm : (m[31] && m[30]) = true) (hp : (p[31] && p[30]) = true) :
    decode w = decodeMemoryClass w := by
  rw [Bool.and_eq_true] at hm hp
  exact decode_memoryClass ((getElem_eq_of_and_eq h hm.1).trans hp.1) ((getElem_eq_of_and_eq h hm.2).trans hp.2)

end masked

/-! ## The Push alias -/

theorem decode_pushAlias {w : Word} (h : w &&& 0xC3C000F0#32 = 0xC20000E0#32) :
    decode w = .push (w.extractLsb' 12 4) (condOf w) := by
  have hsel : selectorOf w = 0b1000#4 := extract_eq_of_and_eq h (by decide)
  have hslot : w.extractLsb' 4 4 = 14#4 := extract_eq_of_and_eq h (by decide)
  rw [decode_memoryClass_of_and_eq h (by decide) (by decide), decodeMemoryClass_pushAlias hsel hslot]

theorem decode_push {w : Word} (h : w &&& 0xC3C00000#32 = 0xC0400000#32) :
    decode w = .push (w.extractLsb' 12 4) (condOf w) := by
  have hsel : selectorOf w = 0b0001#4 := extract_eq_of_and_eq h (by decide)
  rw [decode_memoryClass_of_and_eq h (by decide) (by decide), decodeMemoryClass_push hsel]

/-- Settles O5: both encodings decode to a Push of the same two fields. -/
theorem pushAliasIsPush : Obligations.PushAliasIsPush := by
  refine ⟨fun w => decode_pushAlias, fun w w' halias hpush hreg hcond => ?_, by decide, by decide, by decide⟩
  rw [decode_pushAlias halias, decode_push hpush, hreg, condOf, condOf, hcond]

/-! ## Sign extension -/

theorem sext10_toInt (v : BitVec 10) : (sext10 v).toInt = v.toInt :=
  BitVec.toInt_signExtend_of_le (by decide)

theorem sext10_toInt_bounds (v : BitVec 10) : -512 ≤ (sext10 v).toInt ∧ (sext10 v).toInt ≤ 511 := by
  simpa [immInRange] using sext10_inRange v

theorem sext10_eq_append (v : BitVec 10) : sext10 v = (if v[9] then BitVec.allOnes 22 else 0#22) ++ v := by
  simpa [sext10, BitVec.msb_eq_getLsbD_last] using BitVec.signExtend_eq_append_of_le (x := v) (v := 32) (by decide)

/-- The two cases of 30_encoding.md R76: bit 9 sets the upper 22 bits, or leaves them 0. -/
theorem sext10_eq_ite (v : BitVec 10) :
    sext10 v = if v[9] then 0xFFFFFC00#32 ||| v.zeroExtend 32 else v.zeroExtend 32 := by
  have hzext : v.zeroExtend 32 = 0#22 ++ v := BitVec.setWidth_eq_append (by decide)
  have hones : 0xFFFFFC00#32 = BitVec.allOnes 22 ++ 0#10 := by decide
  rw [sext10_eq_append, hzext, hones, BitVec.or_append, BitVec.or_zero, BitVec.zero_or]
  split <;> rfl

/-! ## Where the decoder takes its immediates from -/

/-- The offset of a READ or a WRITE. -/
def Instr.offset? : Instr → Option Word
  | .read off _ _ _ | .write off _ _ _ => some off
  | _ => none

theorem arithOfOpcode_arithFields? (op : BitVec 3) (f : ArithFields) (c : Cond) :
    (arithOfOpcode op f c).arithFields? = some f := by
  unfold arithOfOpcode
  split <;> rfl

theorem arithOfOpcode_offset? (op : BitVec 3) (f : ArithFields) (c : Cond) : (arithOfOpcode op f c).offset? = none := by
  unfold arithOfOpcode
  split <;> rfl

theorem decodeMemoryClass_arithFields? (w : Word) : (decodeMemoryClass w).arithFields? = none := by
  unfold decodeMemoryClass
  repeat' split
  all_goals rfl

theorem decodeMemoryClass_offset? {w off : Word} (h : (decodeMemoryClass w).offset? = some off) : off = immOf w := by
  unfold decodeMemoryClass at h
  repeat' split at h
  all_goals cases h <;> rfl

theorem arithFields?_of_decode {w : Word} {f : ArithFields} (h : (decode w).arithFields? = some f) :
    f = arithFieldsOf w := by
  cases h31 : w[31] with
  | false => simpa [decode_arith h31, arithOfOpcode_arithFields?] using h.symm
  | true =>
    cases h30 : w[30] with
    | false => simp [decode_loadHigh h31 h30, Instr.arithFields?] at h
    | true => simp [decode_memoryClass h31 h30, decodeMemoryClass_arithFields?] at h

theorem offset?_of_decode {w off : Word} (h : (decode w).offset? = some off) : off = immOf w := by
  cases h31 : w[31] with
  | false => simp [decode_arith h31, arithOfOpcode_offset?] at h
  | true =>
    cases h30 : w[30] with
    | false => simp [decode_loadHigh h31 h30, Instr.offset?] at h
    | true =>
      rw [decode_memoryClass h31 h30] at h
      exact decodeMemoryClass_offset? h

/-- Settles O7: the value and the bits of `sext10`, and the one field every decoded immediate and offset comes from. -/
theorem immediatesAreSignExtended : Obligations.ImmediatesAreSignExtended := by
  refine ⟨fun v => ?value, fun w f hf => ?arith, fun w off a d c h => ?read, fun w off a b c h => ?write,
    by decide, by decide, by decide⟩
  case value =>
    obtain ⟨hlow, hhigh⟩ := sext10_toInt_bounds v
    exact ⟨sext10_toInt v, hlow, hhigh, sext10_eq_ite v⟩
  case arith => exact congrArg ArithFields.imm (arithFields?_of_decode hf)
  case read => exact offset?_of_decode (congrArg Instr.offset? h)
  case write => exact offset?_of_decode (congrArg Instr.offset? h)

end Sys2Proof
end

section
/-! PROOFS. O33 to O46, the whole machine: how a step ends (10_state.md R26), the invariant, that every step answers,
and what an instruction leaves unchanged (10_state.md R24, 20_memory.md R50). -/

namespace Sys2Proof.Machine

/-! ## A running machine -/

theorem State.running_iff (s : State) : s.running = true ↔ s.halted = false ∧ s.fault = none := by
  simp [State.running]

theorem step_of_not_running {s : State} (h : s.running = false) : step s = .next s := by
  simp [step, h, noStep]

theorem step_of_fetch {s : State} {w : Word} (hr : s.running = true) (hf : fetch s = some w) :
    step s = exec (decode w) s := by
  simp [step, hr, hf]

theorem step_of_no_word {s : State} (hf : fetch s = none) : step s = .next s := by
  simp [step, hf, noStep]

/-- Settles O33. -/
theorem stepRunsDecodedInstruction : Obligations.StepRunsDecodedInstruction := by
  rintro s w _ hr hf rfl
  exact step_of_fetch hr hf

/-! ## How an instruction ends -/

/-- How an instruction ends: it completes and the sequencer advances, it waits for an input byte, it halts, or it
raises an exception (10_state.md R26). -/
inductive Ending (i : Instr) (s t : State) : Prop
  | completed : t.pc = s.pc + pcStep → t.halted = s.halted → t.fault = s.fault → Ending i s t
  | waited : starved s i = true → t = s → Ending i s t
  | halted (c : Cond) : i = .halt c → condPass c s = true → t = s.setHalted → Ending i s t
  | faulted (e : Cause) (x : Word) : t = s.recordFault e x → Ending i s t

theorem Effect.ending {i : Instr} {s t : State} (h : Effect i s t) : Ending i s t := by
  cases h with
  | waited off a d c hi hc hp hin => exact .waited (by simp [hi, starved, hc, hp, hin]) rfl
  | stopped c hi hc => exact .halted c hi hc rfl
  | readFaulted | writeFaulted | pushFaulted | popFaulted | illegal => exact .faulted _ _ rfl
  | _ => exact .completed (by simp) (by simp) (by simp)

/-- How a step of a running machine ends. -/
theorem step_ending {s t : State} (hr : s.running = true) (h : step s = .next t) :
    (fetch s = none ∧ t = s) ∨ ∃ w, fetch s = some w ∧ Ending (decode w) s t := by
  rcases step_cases h with ⟨hnot, -⟩ | ⟨-, hf, ht⟩ | ⟨w, -, hf, he⟩
  · simp [hr] at hnot
  · exact .inl ⟨hf, ht⟩
  · exact .inr ⟨w, hf, he.ending⟩

/-! ## The invariant -/

theorem Effect.cfg_eq {i : Instr} {s t : State} (h : Effect i s t) : t.cfg = s.cfg := by
  cases h <;> simp

/-- Every instruction keeps the canonical form of memory: the two stores write inside the address space. -/
theorem Effect.mem_wf {i : Instr} {s t : State} (h : Effect i s t) (hw : s.mem.wf) : t.mem.wf := by
  cases h with
  | stored _ _ _ _ _ _ _ hok => exact Memory.writeWord_wf hw (memOk_in_range hok)
  | pushed _ _ _ _ hok => exact Memory.writeWord_wf hw (memOk_in_range hok)
  | computed => simpa using hw
  | _ => exact hw

theorem add_pcStep_aligned {pc : Word} (h : pc.toNat % 4 = 0) : (pc + pcStep).toNat % 4 = 0 := by
  simp only [pcStep, BitVec.toNat_add, BitVec.toNat_ofNat]
  omega

/-- Settles O34, by how the step ends: only a completed step moves the pc, and a running machine that halts or faults
has not done the other before. -/
theorem stepKeepsInvariant : Obligations.StepKeepsInvariant := by
  intro s t hs h
  rcases step_cases h with ⟨-, rfl⟩ | ⟨-, -, rfl⟩ | ⟨w, hr, -, he⟩
  · exact hs
  · exact hs
  · obtain ⟨hhalted, hfault⟩ := s.running_iff.1 hr
    have hmem := he.mem_wf hs.memory
    have hreset : t.cfg.resetPc.toNat % 4 = 0 := he.cfg_eq ▸ hs.resetPc
    cases he.ending with
    | completed hpc hh hf => exact ⟨hmem, hpc ▸ add_pcStep_aligned hs.pcAligned, hreset, by simp [hh, hhalted]⟩
    | waited _ ht => exact ht ▸ hs
    | halted c _ _ ht => exact ⟨hmem, ht ▸ hs.pcAligned, hreset, by simp [ht, hfault]⟩
    | faulted e x ht => exact ⟨hmem, ht ▸ hs.pcAligned, hreset, by simp [ht, hhalted]⟩

/-- Settles O35. -/
theorem resetHasInvariant : Obligations.ResetHasInvariant :=
  ⟨State.reset_memory_wf, by decide, by decide, by decide⟩

/-! ## Every step answers -/

theorem withLoaded_answers (addr : Word) (s : State) (use : Word → State) :
    ∃ t, withLoaded addr s use = .next t := by
  cases hok : memOk s.cfg .read addr with
  | true => exact ⟨_, withLoaded_ok hok⟩
  | false => exact ⟨_, withLoaded_fault hok⟩

theorem withStored_answers (addr v : Word) (s : State) (use : State → State) :
    ∃ t, withStored addr v s use = .next t := by
  cases hok : memOk s.cfg .write addr with
  | true => exact ⟨_, withStored_ok hok⟩
  | false => exact ⟨_, withStored_fault hok⟩

theorem readPort_of_byte {s : State} {b : Byte} {rest : List Byte} (h : s.input = b :: rest) (d : Reg) :
    readPort d s = .next ((s.withInput rest).setReg d (b.zeroExtend 32)).advance := by
  simp [readPort, ioIn, h, complete]

theorem readPort_of_empty {s : State} (h : s.input = []) (d : Reg) : readPort d s = .next s := by
  simp [readPort, ioIn, h, noStep]

theorem readPort_answers (d : Reg) (s : State) : ∃ t, readPort d s = .next t := by
  cases h : s.input with
  | nil => exact ⟨_, readPort_of_empty h d⟩
  | cons b rest => exact ⟨_, readPort_of_byte h d⟩

theorem exec_answers_of_condPass {i : Instr} {s : State} (hc : condPass i.cond s = true) : ∃ t, exec i s = .next t := by
  cases i with
  | or f c => exact ⟨_, exec_or hc f⟩
  | xor f c => exact ⟨_, exec_xor hc f⟩
  | and f c => exact ⟨_, exec_and hc f⟩
  | andn f c => exact ⟨_, exec_andn hc f⟩
  | unassigned f c => exact ⟨_, exec_unassigned f c s⟩
  | rol f c => exact ⟨_, exec_rol hc f⟩
  | add f c => exact ⟨_, exec_add hc f⟩
  | sub f c => exact ⟨_, exec_sub hc f⟩
  | ldhi k d c => exact ⟨_, exec_ldhi hc k d⟩
  | read off a d c =>
    by_cases hp : effectiveAddress a off s = ioAddr
    · exact exec_read_port hc hp ▸ readPort_answers d s
    · exact exec_read_memory hc hp ▸ withLoaded_answers _ s _
  | write off a b c =>
    by_cases hp : effectiveAddress a off s = ioAddr
    · exact ⟨_, exec_write_port hc hp⟩
    · exact exec_write_memory hc hp ▸ withStored_answers _ _ s _
  | push a c => exact exec_push hc a ▸ withStored_answers _ _ s _
  | pop d c => exact exec_pop hc d ▸ withLoaded_answers _ s _
  | halt c => exact ⟨_, exec_halt hc⟩

theorem exec_answers (i : Instr) (s : State) : ∃ t, exec i s = .next t := by
  cases hc : condPass i.cond s with
  | true => exact exec_answers_of_condPass hc
  | false =>
    by_cases hu : ∃ f c, i = .unassigned f c
    · obtain ⟨f, c, rfl⟩ := hu
      exact ⟨_, exec_unassigned f c s⟩
    · exact ⟨_, exec_of_condPass_false (fun f c hi => hu ⟨f, c, hi⟩) hc⟩

/-- Settles O37. -/
theorem stepAlwaysAnswers : Obligations.StepAlwaysAnswers := by
  intro s
  cases hr : s.running with
  | false => exact ⟨s, step_of_not_running hr⟩
  | true =>
    cases hf : fetch s with
    | none => exact ⟨s, step_of_no_word hf⟩
    | some w =>
      rw [step_of_fetch hr hf]
      exact exec_answers (decode w) s

/-! ## Stuck and stopped machines -/

theorem exec_of_starved {i : Instr} {s : State} (h : starved s i = true) : exec i s = .next s := by
  cases i with
  | read off a d c =>
    simp only [starved, Bool.and_eq_true, beq_iff_eq, List.isEmpty_iff] at h
    obtain ⟨⟨hc, hp⟩, hin⟩ := h
    rw [exec_read_port hc hp, readPort_of_empty hin]
  | _ => simp [starved] at h

theorem step_of_waiting {s : State} (h : s.waiting = true) : step s = .next s := by
  simp only [State.waiting, Bool.and_eq_true] at h
  obtain ⟨hr, hw⟩ := h
  cases hf : fetch s with
  | none => exact step_of_no_word hf
  | some w =>
    rw [hf] at hw
    rw [step_of_fetch hr hf, exec_of_starved hw]

/-- Settles O39, by why the machine takes no step. -/
theorem noStepChangesNothing : Obligations.NoStepChangesNothing := by
  rintro s (h | h | h)
  · exact step_of_not_running (by simp [State.running, h])
  · exact step_of_not_running (by simp [State.running, Option.isNone_eq_false_iff.2 h])
  · exact step_of_waiting h

theorem run_succ {M : Host.Core} {s t : M.State} (h : M.step s = .next t) (k : Nat) : M.run (k + 1) s = M.run k t := by
  simp [Host.Core.run, h]

/-- Settles O41, by induction on the number of steps. -/
theorem stoppedRunIsFinal : Obligations.StoppedRunIsFinal := by
  intro k s h
  have hstep : step s = .next s := by
    refine noStepChangesNothing s ?_
    rcases h with h | h
    · exact .inl (Bool.and_eq_true_iff.1 h).1
    · exact .inr (.inl h)
  induction k with
  | zero => rfl
  | succ k ih => exact (run_succ (M := Sys2Proof.core) hstep k).trans ih

/-! ## The pc, halted and the fault -/

theorem waiting_of_starved {s : State} {w : Word} (hr : s.running = true) (hf : fetch s = some w)
    (h : starved s (decode w) = true) : s.waiting = true := by
  simp [State.waiting, hr, hf, h]

theorem waiting_of_no_word {s : State} (hr : s.running = true) (hf : fetch s = none) : s.waiting = true := by
  simp [State.waiting, hr, hf]

/-- Settles O38, by how the step ends; a waiting machine answers its own state. -/
theorem sequencerAdvance : Obligations.SequencerAdvance := by
  intro s t hr h
  have hstuck (hw : s.waiting = true) : t.pc = s.pc := by
    rw [step_of_waiting hw] at h
    cases h
    rfl
  obtain ⟨hhalted, hfault⟩ := s.running_iff.1 hr
  rcases step_ending hr h with ⟨hf, rfl⟩ | ⟨w, hf, he⟩
  · have hw := waiting_of_no_word hr hf
    exact ⟨by simp [hw], fun _ => rfl, fun _ => rfl, fun _ => rfl⟩
  · cases he with
    | completed hpc hh hf' => exact ⟨fun _ _ _ => hpc, by simp [hh, hhalted], by simp [hf', hfault], hstuck⟩
    | waited hst ht =>
      subst ht
      have hw := waiting_of_starved hr hf hst
      exact ⟨by simp [hw], fun _ => rfl, fun _ => rfl, fun _ => rfl⟩
    | halted c _ _ ht => subst ht; exact ⟨by simp, fun _ => rfl, fun _ => rfl, fun _ => rfl⟩
    | faulted e x ht => subst ht; exact ⟨by simp, fun _ => rfl, fun _ => rfl, fun _ => rfl⟩

/-- Settles O36: of the four endings only the exception leaves a fault behind, and it writes nothing else. -/
theorem faultsArePrecise : Obligations.FaultsArePrecise := by
  intro s t hr h ht
  obtain ⟨-, hfault⟩ := s.running_iff.1 hr
  rcases step_ending hr h with ⟨-, rfl⟩ | ⟨w, -, he⟩
  · rfl
  · cases he with
    | completed _ _ hf => simp [hf, hfault] at ht
    | waited _ heq => rw [heq]
    | halted c _ _ heq => simp [heq, hfault] at ht
    | faulted e x heq => rw [heq]; rfl

/-- Settles O40: of the four endings only HALT sets the bit, and a stopped machine takes no step. -/
theorem onlyHaltHalts : Obligations.OnlyHaltHalts := by
  intro s t h
  cases hr : s.running with
  | false =>
    rw [step_of_not_running hr] at h
    cases h
    exact ⟨fun h0 h1 => by simp [h0] at h1, id, fun _ => rfl⟩
  | true =>
    obtain ⟨hhalted, hfault⟩ := s.running_iff.1 hr
    refine ⟨fun _ ht => ?_, by simp [hhalted], by simp [hfault]⟩
    rcases step_ending hr h with ⟨-, rfl⟩ | ⟨w, hf, he⟩
    · simp [hhalted] at ht
    · cases he with
      | completed _ hh _ => simp [hh, hhalted] at ht
      | waited _ heq => simp [heq, hhalted] at ht
      | halted c hi hc _ => exact ⟨w, c, hf, hi, hc⟩
      | faulted e x heq => simp [heq, hhalted] at ht

/-! ## What an instruction leaves unchanged -/

/-- Settles O42: of all effects only the four memory faults record a MemoryFault. -/
theorem memoryFaultOrigin : Obligations.MemoryFaultOrigin := by
  intro i s t addr hs h ht
  cases exec_effect h with
  | readFaulted off a d c hi hc hp hok =>
    cases ht
    exact ⟨hi ▸ hc, .inl ⟨off, a, d, c, hi, rfl, hp, hok⟩⟩
  | writeFaulted off a b c hi hc hp hok =>
    cases ht
    exact ⟨hi ▸ hc, .inr (.inl ⟨off, a, b, c, hi, rfl, hp, hok⟩)⟩
  | pushFaulted a c hi hc hok =>
    cases ht
    exact ⟨hi ▸ hc, .inr (.inr (.inl ⟨a, c, hi, rfl, hok⟩))⟩
  | popFaulted d c hi hc hok =>
    cases ht
    exact ⟨hi ▸ hc, .inr (.inr (.inr ⟨d, c, hi, rfl, hok⟩))⟩
  | illegal f c hi => cases ht
  | _ => simp [hs] at ht

/-- Settles O43. -/
theorem storesNeverReachInstructions : Obligations.StoresNeverReachInstructions := by
  refine ⟨fun _ _ => rfl, fun s t h => ?_⟩
  rcases step_cases h with ⟨-, rfl⟩ | ⟨-, -, rfl⟩ | ⟨w, -, -, he⟩
  · rfl
  · rfl
  · exact he.cfg_eq

/-- Settles O44: of all effects two move a stream. -/
theorem streamsMoveOnlyAtThePort : Obligations.StreamsMoveOnlyAtThePort := by
  intro i s t h
  cases exec_effect h with
  | consumed off a d c b rest hi hc hp hin =>
    exact ⟨.inr ⟨off, a, d, c, b, hi, hc, hp, hin, by simp⟩, .inl rfl⟩
  | emitted off a b c hi hc hp => exact ⟨.inl rfl, .inr ⟨off, a, b, c, hi, hc, hp, rfl⟩⟩
  | _ => exact ⟨.inl (by simp), .inl (by simp)⟩

/-- Settles O45: of all effects two are stores. -/
theorem memoryChangesOnlyByStores : Obligations.MemoryChangesOnlyByStores := by
  intro i s t h
  cases exec_effect h with
  | stored off a b c hi _ hp _ => exact .inr (.inl ⟨off, a, b, c, hi, hp, s.storeWord_outside _ _⟩)
  | pushed a c hi _ _ => exact .inr (.inr ⟨a, c, hi, s.storeWord_outside _ _⟩)
  | _ => exact .inl fun _ => by simp

/-! ## Registers an instruction does not name -/

/-- The columns of 10_state.md R24 for an Arithmetic instruction. -/
theorem arith_columns {i : Instr} {f : ArithFields} (hf : i.arithFields? = some f)
    (hu : ∀ g c, i ≠ .unassigned g c) :
    regsRead i = (if f.usesReg then [f.regA, f.regB] else [f.regB]) ∧ regsWritten i = [f.regD] := by
  cases i with
  | unassigned g c => exact absurd rfl (hu g c)
  | ldhi | read | write | push | pop | halt => cases hf
  | _ => cases hf; exact ⟨rfl, rfl⟩

theorem State.setReg_comm {q r : Reg} (h : q ≠ r) (s : State) (x v : Word) :
    (s.setReg q x).setReg r v = (s.setReg r v).setReg q x := by
  have hne : q.toNat ≠ r.toNat := fun e => h (BitVec.eq_of_toNat_eq e)
  simp only [State.setReg, Vector.set_comm _ _ hne]

section untouched

variable {r : Reg} {v : Word} {s : State}

theorem effectiveAddress_setReg {a : Reg} (ha : a ≠ r) (off : Word) :
    effectiveAddress a off (s.setReg r v) = effectiveAddress a off s := by
  rw [effectiveAddress, State.reg_setReg_ne _ _ ha, effectiveAddress]

theorem pushAddress_setReg (hsp : spReg ≠ r) : pushAddress (s.setReg r v) = pushAddress s := by
  rw [pushAddress, State.reg_setReg_ne _ _ hsp, pushAddress]

theorem popAddress_setReg (hsp : spReg ≠ r) : popAddress (s.setReg r v) = popAddress s :=
  State.reg_setReg_ne _ _ hsp

theorem operandA_setReg {f : ArithFields} (h : f.usesReg = true → f.regA ≠ r) :
    operandA f (s.setReg r v) = operandA f s := by
  unfold operandA
  split
  case isTrue hu => exact State.reg_setReg_ne _ _ (h hu)
  case isFalse => rfl

theorem storeResult_setReg {f : ArithFields} (hd : f.regD ≠ r) (x : AluResult) :
    storeResult f x (s.setReg r v) = (storeResult f x s).setReg r v := by
  unfold storeResult
  rw [← State.setReg_comm hd]
  split <;> rfl

/-- A load that goes on with a state it treats alike answers alike. -/
theorem withLoaded_setReg {addr : Word} {t : State} {use use' : Word → State}
    (huse : ∀ x, use' x = (use x).setReg r v) (h : withLoaded addr s use = .next t) :
    withLoaded addr (s.setReg r v) use' = .next (t.setReg r v) := by
  cases hok : memOk s.cfg .read addr with
  | true =>
    rw [withLoaded_ok hok] at h
    cases h
    rw [withLoaded_ok (s := s.setReg r v) hok, huse]
    rfl
  | false =>
    rw [withLoaded_fault hok] at h
    cases h
    exact withLoaded_fault (s := s.setReg r v) hok

/-- A store that goes on from a state it treats alike answers alike. -/
theorem withStored_setReg {addr x : Word} {t : State} {use : State → State}
    (huse : ∀ u : State, use (u.setReg r v) = (use u).setReg r v) (h : withStored addr x s use = .next t) :
    withStored addr x (s.setReg r v) use = .next (t.setReg r v) := by
  cases hok : memOk s.cfg .write addr with
  | true =>
    rw [withStored_ok hok] at h
    cases h
    rw [withStored_ok (s := s.setReg r v) hok]
    exact congrArg complete (huse (s.storeWord addr x))
  | false =>
    rw [withStored_fault hok] at h
    cases h
    exact withStored_fault (s := s.setReg r v) hok

theorem readPort_setReg {d : Reg} {t : State} (hd : d ≠ r) (h : readPort d s = .next t) :
    readPort d (s.setReg r v) = .next (t.setReg r v) := by
  rcases readPort_cases h with ⟨b, rest, hin, rfl⟩ | ⟨hin, rfl⟩
  · rw [readPort_of_byte (s := s.setReg r v) hin]
    exact congrArg complete (State.setReg_comm hd (s.withInput rest) _ v).symm
  · exact readPort_of_empty (s := t.setReg r v) hin d

theorem arith_registers_ne {i : Instr} {f : ArithFields} (hf : i.arithFields? = some f)
    (hu : ∀ g c, i ≠ .unassigned g c) (hread : r ∉ regsRead i) (hwrite : r ∉ regsWritten i) :
    (f.usesReg = true → f.regA ≠ r) ∧ f.regB ≠ r ∧ f.regD ≠ r := by
  obtain ⟨hreads, hwrites⟩ := arith_columns hf hu
  have hB : f.regB ≠ r := by
    rintro rfl
    exact hread (by rw [hreads]; split <;> simp)
  have hD : f.regD ≠ r := by
    rintro rfl
    exact hwrite (by simp [hwrites])
  refine ⟨?_, hB, hD⟩
  rintro huse rfl
  exact hread (by simp [hreads, huse])

theorem exec_arith_setReg {i : Instr} {f : ArithFields} {t : State} (hf : i.arithFields? = some f)
    (hu : ∀ g c, i ≠ .unassigned g c) (hread : r ∉ regsRead i) (hwrite : r ∉ regsWritten i)
    (hc : condPass i.cond s = true) (h : exec i s = .next t) : exec i (s.setReg r v) = .next (t.setReg r v) := by
  obtain ⟨hA, hB, hD⟩ := arith_registers_ne hf hu hread hwrite
  obtain ⟨alu, hexec, -⟩ := exists_exec_eq_execAlu hf hu
  have hc' : condPass i.cond (s.setReg r v) = true := hc
  rw [hexec, execAlu_of_condPass hc] at h
  cases h
  rw [hexec, execAlu_of_condPass hc', operandA_setReg hA, operandB, State.reg_setReg_ne _ _ hB, storeResult_setReg hD]
  rfl

theorem exec_read_setReg {off : Word} {a d : Reg} {c : Cond} {t : State} (ha : a ≠ r) (hd : d ≠ r)
    (hc : condPass c s = true) (h : exec (.read off a d c) s = .next t) :
    exec (.read off a d c) (s.setReg r v) = .next (t.setReg r v) := by
  have hc' : condPass c (s.setReg r v) = true := hc
  have haddr := effectiveAddress_setReg (s := s) (v := v) ha off
  by_cases hp : effectiveAddress a off s = ioAddr
  · rw [exec_read_port hc hp] at h
    rw [exec_read_port hc' (haddr.trans hp)]
    exact readPort_setReg hd h
  · rw [exec_read_memory hc hp] at h
    rw [exec_read_memory hc' (haddr ▸ hp), haddr]
    exact withLoaded_setReg (fun x => (State.setReg_comm hd s x v).symm) h

theorem exec_write_setReg {off : Word} {a b : Reg} {c : Cond} {t : State} (ha : a ≠ r) (hb : b ≠ r)
    (hc : condPass c s = true) (h : exec (.write off a b c) s = .next t) :
    exec (.write off a b c) (s.setReg r v) = .next (t.setReg r v) := by
  have hc' : condPass c (s.setReg r v) = true := hc
  have haddr := effectiveAddress_setReg (s := s) (v := v) ha off
  by_cases hp : effectiveAddress a off s = ioAddr
  · rw [exec_write_port hc hp] at h
    cases h
    rw [exec_write_port hc' (haddr.trans hp), State.reg_setReg_ne _ _ hb]
    rfl
  · rw [exec_write_memory hc hp] at h
    rw [exec_write_memory hc' (haddr ▸ hp), haddr, State.reg_setReg_ne _ _ hb]
    exact withStored_setReg (fun _ => rfl) h

theorem exec_push_setReg {a : Reg} {c : Cond} {t : State} (ha : a ≠ r) (hsp : spReg ≠ r) (hc : condPass c s = true)
    (h : exec (.push a c) s = .next t) : exec (.push a c) (s.setReg r v) = .next (t.setReg r v) := by
  have hc' : condPass c (s.setReg r v) = true := hc
  rw [exec_push hc] at h
  rw [exec_push hc', pushAddress_setReg hsp, State.reg_setReg_ne _ _ ha]
  exact withStored_setReg (fun u => (State.setReg_comm hsp u _ v).symm) h

theorem exec_pop_setReg {d : Reg} {c : Cond} {t : State} (hd : d ≠ r) (hsp : spReg ≠ r) (hc : condPass c s = true)
    (h : exec (.pop d c) s = .next t) : exec (.pop d c) (s.setReg r v) = .next (t.setReg r v) := by
  have hc' : condPass c (s.setReg r v) = true := hc
  rw [exec_pop hc] at h
  rw [exec_pop hc', popAddress_setReg hsp]
  refine withLoaded_setReg (fun x => ?_) h
  rw [← State.setReg_comm hd, State.reg_setReg_ne _ _ hsp, ← State.setReg_comm hsp]

/-- A register that an instruction neither reads nor writes stays out of its answer. -/
theorem exec_setReg {i : Instr} {t : State} (hread : r ∉ regsRead i) (hwrite : r ∉ regsWritten i)
    (h : exec i s = .next t) : exec i (s.setReg r v) = .next (t.setReg r v) := by
  by_cases hu : ∃ g c, i = .unassigned g c
  · obtain ⟨g, c, rfl⟩ := hu
    cases h
    rfl
  have hu : ∀ g c, i ≠ .unassigned g c := fun g c hi => hu ⟨g, c, hi⟩
  cases hc : condPass i.cond s with
  | false =>
    rw [exec_of_condPass_false hu hc] at h
    cases h
    exact exec_of_condPass_false (s := s.setReg r v) hu hc
  | true =>
    cases i with
    | ldhi k d c =>
      have hd : d ≠ r := by simpa [regsWritten, eq_comm] using hwrite
      rw [exec_ldhi (c := c) hc] at h
      cases h
      rw [exec_ldhi (c := c) (s := s.setReg r v) hc, ← State.setReg_comm hd]
      rfl
    | read off a d c =>
      simp only [regsRead, regsWritten, List.mem_singleton] at hread hwrite
      exact exec_read_setReg (Ne.symm hread) (Ne.symm hwrite) hc h
    | write off a b c =>
      simp only [regsRead, List.mem_cons, List.not_mem_nil, or_false, not_or] at hread
      obtain ⟨ha, hb⟩ := hread
      exact exec_write_setReg (Ne.symm ha) (Ne.symm hb) hc h
    | push a c =>
      simp only [regsRead, List.mem_cons, List.not_mem_nil, or_false, not_or] at hread
      obtain ⟨ha, hsp⟩ := hread
      exact exec_push_setReg (Ne.symm ha) (Ne.symm hsp) hc h
    | pop d c =>
      simp only [regsWritten, List.mem_cons, List.not_mem_nil, or_false, not_or] at hwrite
      obtain ⟨hd, hsp⟩ := hwrite
      exact exec_pop_setReg (Ne.symm hd) (Ne.symm hsp) hc h
    | halt c =>
      rw [exec_halt (c := c) hc] at h
      cases h
      exact exec_halt (c := c) (s := s.setReg r v) hc
    | _ => exact exec_arith_setReg rfl hu hread hwrite hc h

end untouched

/-- Every register outside the Writes column of 10_state.md R24 is kept. -/
theorem Effect.regsKept {i : Instr} {s t : State} (h : Effect i s t) : RegsKept s t (regsWritten i) := by
  intro r hr
  cases h with
  | computed f x hf hu _ =>
    have hd : r ≠ f.regD := by simpa [(arith_columns hf hu).2] using hr
    rw [State.advance_reg, storeResult_reg, if_neg hd]
  | loadedHigh k d c hi =>
    subst hi
    exact State.reg_setReg_ne s _ (by simpa [regsWritten] using hr)
  | loaded off a d c v hi =>
    subst hi
    exact State.reg_setReg_ne s _ (by simpa [regsWritten] using hr)
  | consumed off a d c b rest hi =>
    subst hi
    exact State.reg_setReg_ne (s.withInput rest) _ (by simpa [regsWritten] using hr)
  | pushed a c hi =>
    subst hi
    exact State.reg_setReg_ne (s.storeWord _ _) _ (by simpa [regsWritten] using hr)
  | popped d c v hi =>
    subst hi
    have hne : r ≠ d ∧ r ≠ spReg := by simpa [regsWritten] using hr
    obtain ⟨hd, hsp⟩ := hne
    exact (State.reg_setReg_ne (s.setReg d v) _ hsp).trans (State.reg_setReg_ne s v hd)
  | _ => simp

/-- Settles O46: the effects write only the columns, and `exec` commutes with a write to an unnamed register. -/
theorem registerFootprint : Obligations.RegisterFootprint := fun _ _ _ h =>
  ⟨(exec_effect h).regsKept, fun _ _ hread hwrite => exec_setReg hread hwrite h⟩

end Sys2Proof.Machine
end

section
/-! PROOFS. O1 to O4 and O6, the encoding (30_encoding.md): which word decodes to which instruction, by its row (R83);
the round trips (R63, R65, R92); the opcode table and its ignored bits (R80). -/

namespace Sys2Proof

/-! ## Which word decodes to which instruction -/

section rows

variable {w m p : Word}

/-- A format A word, by the opcode of its pattern (30_encoding.md R64). -/
theorem decode_arith_of_and_eq (h : w &&& 0xF0000000#32 = p) (hp : p[31] = false) :
    decode w = arithOfOpcode (p.extractLsb' 28 3) (arithFieldsOf w) (condOf w) := by
  have h31 : w[31] = false := (getElem_eq_of_and_eq h (by decide)).trans hp
  have hop : w.extractLsb' 28 3 = p.extractLsb' 28 3 := extract_eq_of_and_eq h (by decide)
  rw [decode_arith h31, hop]

theorem decode_ldhi (h : w &&& 0xC0000000#32 = 0x80000000#32) :
    decode w = .ldhi (zext22 (w.extractLsb' 8 22)) (w.extractLsb' 4 4) (condOf w) :=
  decode_loadHigh (getElem_eq_of_and_eq h (by decide)) (getElem_eq_of_and_eq h (by decide))

theorem decode_read (h : w &&& 0xC3C00000#32 = 0xC0000000#32) :
    decode w = .read (immOf w) (w.extractLsb' 8 4) (w.extractLsb' 4 4) (condOf w) := by
  have hsel : selectorOf w = 0b0000#4 := extract_eq_of_and_eq h (by decide)
  rw [decode_memoryClass_of_and_eq h (by decide) (by decide)]
  simp [decodeMemoryClass, hsel]

theorem decode_write (h : w &&& 0xC3C00000#32 = 0xC2000000#32) (hslot : w.extractLsb' 4 4 ≠ 14#4) :
    decode w = .write (immOf w) (w.extractLsb' 8 4) (w.extractLsb' 12 4) (condOf w) := by
  have hsel : selectorOf w = 0b1000#4 := extract_eq_of_and_eq h (by decide)
  rw [decode_memoryClass_of_and_eq h (by decide) (by decide)]
  simp [decodeMemoryClass, hsel, hslot]

theorem decode_pop (h : w &&& 0xC3C00000#32 = 0xC1000000#32) :
    decode w = .pop (w.extractLsb' 4 4) (condOf w) := by
  have hsel : selectorOf w = 0b0100#4 := extract_eq_of_and_eq h (by decide)
  rw [decode_memoryClass_of_and_eq h (by decide) (by decide)]
  simp [decodeMemoryClass, hsel]

/-- A selector that names no class (30_encoding.md R73). -/
def unassignedSelector (sel : BitVec 4) : Bool :=
  sel != 0b0000#4 && sel != 0b1000#4 && sel != 0b0001#4 && sel != 0b0100#4

theorem decodeMemoryClass_halt (h : unassignedSelector (selectorOf w) = true) :
    decodeMemoryClass w = .halt (condOf w) := by
  simp only [unassignedSelector, Bool.and_eq_true, bne_iff_ne] at h
  simp [decodeMemoryClass, h]

/-- A masked comparison that fixes the two top bits to 11, and a selector among those that name no class, is Halt. -/
theorem decode_halt_of_and_eq (h : w &&& m = p) (hm : (m[31] && m[30]) = true) (hp : (p[31] && p[30]) = true)
    (hsel : ∀ sel, sel &&& selectorOf m = selectorOf p → unassignedSelector sel = true) :
    decode w = .halt (condOf w) := by
  have hfield : selectorOf w &&& selectorOf m = selectorOf p := by
    rw [← h, selectorOf, selectorOf, selectorOf, BitVec.extractLsb'_and]
  rw [decode_memoryClass_of_and_eq h hm hp, decodeMemoryClass_halt (hsel _ hfield)]

/-- The four HALT rows. -/
theorem decode_halt (h : w &&& 0xC0800000#32 = 0xC0800000#32 ∨ w &&& 0xC1C00000#32 = 0xC1400000#32 ∨
    w &&& 0xC3C00000#32 = 0xC2400000#32 ∨ w &&& 0xC3C00000#32 = 0xC3000000#32) : decode w = .halt (condOf w) := by
  rcases h with h | h | h | h <;> exact decode_halt_of_and_eq h (by decide) (by decide) (by decide)

end rows

/-! ## The immediate of format M -/

/-- The selector is the upper part of a format M word's immediate field (30_encoding.md R67). -/
theorem immOf_eq_selector (w : Word) : immOf w = sext10 (selectorOf w ++ w.extractLsb' 16 6) := by
  rw [immOf, selectorOf, BitVec.extractLsb'_append_extractLsb'_eq_extractLsb' (by decide)]

theorem readOffset_inRange {w : Word} (h : selectorOf w = 0b0000#4) : readOffsetInRange (immOf w) = true := by
  rw [immOf_eq_selector, h]
  generalize w.extractLsb' 16 6 = low
  revert low
  decide

theorem writeOffset_inRange {w : Word} (h : selectorOf w = 0b1000#4) : writeOffsetInRange (immOf w) = true := by
  rw [immOf_eq_selector, h]
  generalize w.extractLsb' 16 6 = low
  revert low
  decide

/-- An offset in the range of ten bits is its bits `[9:6]`, the selector, above its low six bits. -/
theorem sext10_offset {off : Word} {sel : BitVec 4} (hlow : -512 ≤ off.toInt) (hhigh : off.toInt ≤ 511)
    (hsel : (off.toNat / 2 ^ 6) % 2 ^ 4 = sel.toNat) : sext10 (sel ++ off.extractLsb' 0 6) = off := by
  have himm : immInRange off = true := by simp [immInRange, hlow, hhigh]
  have hfield : off.extractLsb' 6 4 = sel := by
    apply BitVec.eq_of_toNat_eq
    rw [BitVec.extractLsb'_toNat, Nat.shiftRight_eq_div_pow, hsel]
  rw [← hfield, BitVec.extractLsb'_append_extractLsb'_eq_extractLsb' (by decide), sext10_extract off himm]

theorem sext10_readOffset {off : Word} (h : readOffsetInRange off = true) :
    sext10 (0b0000#4 ++ off.extractLsb' 0 6) = off := by
  simp only [readOffsetInRange, Bool.and_eq_true, decide_eq_true_eq] at h
  have hcond := BitVec.toInt_eq_toNat_cond off
  have hlt := off.isLt
  refine sext10_offset (by omega) (by omega) ?_
  rw [BitVec.toNat_ofNat]
  split at hcond <;> omega

theorem sext10_writeOffset {off : Word} (h : writeOffsetInRange off = true) :
    sext10 (0b1000#4 ++ off.extractLsb' 0 6) = off := by
  simp only [writeOffsetInRange, Bool.and_eq_true, decide_eq_true_eq] at h
  have hcond := BitVec.toInt_eq_toNat_cond off
  have hlt := off.isLt
  refine sext10_offset (by omega) (by omega) ?_
  rw [BitVec.toNat_ofNat]
  split at hcond <;> omega

/-! ## Decoding an encoded instruction -/

section encodeArith

variable (op : BitVec 3) (f : ArithFields) (c : Cond)

theorem encodeArith_bit31 : (encodeArith op f c)[31] = false := by
  rw [← BitVec.getLsbD_eq_getElem, encodeArith]
  simp only [BitVec.getLsbD_append]
  simp

theorem encodeArith_opcode : (encodeArith op f c).extractLsb' 28 3 = op := by
  unfold encodeArith
  simp (disch := decide) only [extract_append_high, extract_append_low, extract_whole, Nat.reduceSub]

theorem encodeArith_setFlags : (encodeArith op f c)[27] = f.setFlags := by
  rw [← BitVec.getLsbD_eq_getElem, encodeArith]
  simp only [BitVec.getLsbD_append]
  simp

theorem encodeArith_usesReg : (encodeArith op f c)[26] = f.usesReg := by
  rw [← BitVec.getLsbD_eq_getElem, encodeArith]
  simp only [BitVec.getLsbD_append]
  simp

theorem encodeArith_imm : (encodeArith op f c).extractLsb' 16 10 = f.imm.extractLsb' 0 10 := by
  unfold encodeArith
  simp (disch := decide) only [extract_append_high, extract_append_low, extract_whole, Nat.reduceSub]

theorem encodeArith_registers :
    (encodeArith op f c).extractLsb' 12 4 = f.regA ∧ (encodeArith op f c).extractLsb' 8 4 = f.regB ∧
      (encodeArith op f c).extractLsb' 4 4 = f.regD := by
  unfold encodeArith
  simp (disch := decide) only [extract_append_high, extract_append_low, extract_whole, Nat.reduceSub, and_self]

/-- Format A: every field of the word is the field it was built from. -/
theorem decode_encodeArith (himm : immInRange f.imm = true) : decode (encodeArith op f c) = arithOfOpcode op f c := by
  obtain ⟨hA, hB, hD⟩ := encodeArith_registers op f c
  have hfields : arithFieldsOf (encodeArith op f c) = f := by
    rw [arithFieldsOf, immOf, encodeArith_imm, sext10_extract _ himm, encodeArith_setFlags, encodeArith_usesReg, hA, hB,
      hD]
  have hcond : condOf (encodeArith op f c) = c := by
    unfold condOf encodeArith
    simp (disch := decide) only [extract_append_low, extract_whole, Cond.ofCode_code]
  rw [decode_arith (encodeArith_bit31 op f c), encodeArith_opcode, hfields, hcond]

end encodeArith

theorem zext22_extract {k : Word} (h : constantInRange k = true) : zext22 (k.extractLsb' 0 22) = k := by
  simp only [constantInRange, decide_eq_true_eq] at h
  apply BitVec.eq_of_toNat_eq
  simp only [zext22, BitVec.truncate_eq_setWidth, BitVec.toNat_setWidth, BitVec.extractLsb'_toNat, Nat.shiftRight_zero]
  omega

theorem decode_encode_ldhi {k : Word} (h : constantInRange k = true) (d : Reg) (c : Cond) :
    decode (encode (.ldhi k d c)) = .ldhi k d c := by
  have htop : encode (.ldhi k d c) &&& 0xC0000000#32 = 0x80000000#32 := by
    show (0b10#2 ++ k.extractLsb' 0 22 ++ d ++ c.code) &&& (0b11#2 ++ 0#22 ++ 0#4 ++ 0#4) = _
    simp only [BitVec.and_append, BitVec.and_zero]
    rfl
  rw [decode_ldhi htop, condOf]
  unfold encode
  simp (disch := decide) only [extract_append_high, extract_append_low, extract_whole, Nat.reduceSub, zext22_extract h,
    Cond.ofCode_code]

/-- A WRITE's word with a value in the slot `w[7:4]` (30_encoding.md R69). -/
def writeWord (off : Word) (a b : Reg) (c : Cond) (slot : BitVec 4) : Word :=
  0b11#2 ++ 0#4 ++ 0b1000#4 ++ off.extractLsb' 0 6 ++ b ++ a ++ slot ++ c.code

theorem append_or_slot {n : Nat} (x : BitVec n) (slot y : BitVec 4) :
    (x ++ 0#4 ++ y) ||| (0#n ++ slot ++ 0#4) = x ++ slot ++ y := by
  simp only [BitVec.or_append, BitVec.or_zero, BitVec.zero_or]

theorem encode_write_or_slot (off : Word) (a b : Reg) (c : Cond) (slot : BitVec 4) :
    encode (.write off a b c) ||| (slot.zeroExtend 32 <<< 4) = writeWord off a b c slot := by
  have hslot : slot.zeroExtend 32 <<< 4 = 0#24 ++ slot ++ 0#4 := by
    revert slot
    decide
  rw [hslot]
  exact append_or_slot _ slot c.code

theorem decode_writeWord {off : Word} (hoff : writeOffsetInRange off = true) (a b : Reg) (c : Cond) {slot : BitVec 4}
    (hslot : slot ≠ 14#4) : decode (writeWord off a b c slot) = .write off a b c := by
  have hrow : writeWord off a b c slot &&& 0xC3C00000#32 = 0xC2000000#32 := by
    show (0b11#2 ++ 0#4 ++ 0b1000#4 ++ off.extractLsb' 0 6 ++ b ++ a ++ slot ++ c.code) &&&
      (0b11#2 ++ 0#4 ++ 0b1111#4 ++ 0#6 ++ 0#4 ++ 0#4 ++ 0#4 ++ 0#4) = _
    simp only [BitVec.and_append, BitVec.and_zero]
    rfl
  have hfield : (writeWord off a b c slot).extractLsb' 4 4 = slot := by
    unfold writeWord
    simp (disch := decide) only [extract_append_high, extract_append_low, extract_whole, Nat.reduceSub]
  have himm : immOf (writeWord off a b c slot) = off := by
    rw [immOf_eq_selector, selectorOf]
    unfold writeWord
    simp (disch := decide) only [extract_append_high, extract_append_low, extract_whole, Nat.reduceSub]
    exact sext10_writeOffset hoff
  rw [decode_write hrow (by rwa [hfield]), himm, condOf]
  unfold writeWord
  simp (disch := decide) only [extract_append_high, extract_append_low, extract_whole, Nat.reduceSub, Cond.ofCode_code]

theorem decode_encode_read {off : Word} (hoff : readOffsetInRange off = true) (a d : Reg) (c : Cond) :
    decode (encode (.read off a d c)) = .read off a d c := by
  have hrow : encode (.read off a d c) &&& 0xC3C00000#32 = 0xC0000000#32 := by
    show (0b11#2 ++ 0#4 ++ 0b0000#4 ++ off.extractLsb' 0 6 ++ 0#4 ++ a ++ d ++ c.code) &&&
      (0b11#2 ++ 0#4 ++ 0b1111#4 ++ 0#6 ++ 0#4 ++ 0#4 ++ 0#4 ++ 0#4) = _
    simp only [BitVec.and_append, BitVec.and_zero]
    rfl
  have himm : immOf (encode (.read off a d c)) = off := by
    rw [immOf_eq_selector, selectorOf]
    unfold encode
    simp (disch := decide) only [extract_append_high, extract_append_low, extract_whole, Nat.reduceSub]
    exact sext10_readOffset hoff
  rw [decode_read hrow, himm, condOf]
  unfold encode
  simp (disch := decide) only [extract_append_high, extract_append_low, extract_whole, Nat.reduceSub, Cond.ofCode_code]

theorem decode_encode_push (a : Reg) (c : Cond) : decode (encode (.push a c)) = .push a c := by
  have hrow : encode (.push a c) &&& 0xC3C00000#32 = 0xC0400000#32 := by
    show (0b11#2 ++ 0#4 ++ 0b0001#4 ++ 0#6 ++ a ++ 0#8 ++ c.code) &&& (0b11#2 ++ 0#4 ++ 0b1111#4 ++ 0#6 ++ 0#4 ++ 0#8 ++
      0#4) = _
    simp only [BitVec.and_append, BitVec.and_zero]
    rfl
  rw [decode_push hrow, condOf]
  unfold encode
  simp (disch := decide) only [extract_append_high, extract_append_low, extract_whole, Nat.reduceSub, Cond.ofCode_code]

theorem decode_encode_pop (d : Reg) (c : Cond) : decode (encode (.pop d c)) = .pop d c := by
  have hrow : encode (.pop d c) &&& 0xC3C00000#32 = 0xC1000000#32 := by
    show (0b11#2 ++ 0#4 ++ 0b0100#4 ++ 0#14 ++ d ++ c.code) &&& (0b11#2 ++ 0#4 ++ 0b1111#4 ++ 0#14 ++ 0#4 ++ 0#4) = _
    simp only [BitVec.and_append, BitVec.and_zero]
    rfl
  rw [decode_pop hrow, condOf]
  unfold encode
  simp (disch := decide) only [extract_append_high, extract_append_low, extract_whole, Nat.reduceSub, Cond.ofCode_code]

theorem decode_encode_halt (c : Cond) : decode (encode (.halt c)) = .halt c := by
  cases c <;> rfl

/-! ## Every word decodes to a well-formed value -/

theorem arithOfOpcode_wellFormed (op : BitVec 3) (f : ArithFields) (c : Cond) :
    (arithOfOpcode op f c).wellFormed = immInRange f.imm := by
  unfold arithOfOpcode
  split <;> rfl

theorem decodeMemoryClass_wellFormed (w : Word) : (decodeMemoryClass w).wellFormed = true := by
  unfold decodeMemoryClass
  split
  case isTrue hsel => exact readOffset_inRange hsel
  split
  case isTrue hsel =>
    split
    · rfl
    · exact writeOffset_inRange hsel
  split
  · rfl
  split <;> rfl

theorem decode_wellFormed (w : Word) : (decode w).wellFormed = true := by
  cases h31 : w[31] with
  | false => rw [decode_arith h31, arithOfOpcode_wellFormed]; exact sext10_inRange _
  | true =>
    cases h30 : w[30] with
    | false =>
      rw [decode_loadHigh h31 h30]
      have := (w.extractLsb' 8 22).isLt
      simp only [Instr.wellFormed, constantInRange, zext22, BitVec.truncate_eq_setWidth, BitVec.toNat_setWidth,
        decide_eq_true_eq]
      omega
    | true => rw [decode_memoryClass h31 h30]; exact decodeMemoryClass_wellFormed w

theorem decode_encode {i : Instr} (h : i.wellFormed = true) : decode (encode i) = i := by
  cases i with
  | or f c => exact decode_encodeArith 0 f c h
  | xor f c => exact decode_encodeArith 1 f c h
  | and f c => exact decode_encodeArith 2 f c h
  | andn f c => exact decode_encodeArith 3 f c h
  | unassigned f c => exact decode_encodeArith 4 f c h
  | rol f c => exact decode_encodeArith 5 f c h
  | add f c => exact decode_encodeArith 6 f c h
  | sub f c => exact decode_encodeArith 7 f c h
  | ldhi k d c => exact decode_encode_ldhi h d c
  | read off a d c => exact decode_encode_read h a d c
  | write off a b c => exact decode_writeWord (slot := 0#4) h a b c (by decide)
  | push a c => exact decode_encode_push a c
  | pop d c => exact decode_encode_pop d c
  | halt c => exact decode_encode_halt c

/-- Settles O1: one constructor at a time, and for a WRITE with its slot filled in. -/
theorem decodeOfEncode : Obligations.DecodeOfEncode := by
  refine ⟨fun i => decode_encode, fun off a b c slot hoff hslot => ?_, decode_wellFormed⟩
  rw [encode_write_or_slot, decode_writeWord hoff a b c hslot]

/-! ## Encoding a decoded word -/

theorem opcode_cases (op : BitVec 3) :
    op = 0 ∨ op = 1 ∨ op = 2 ∨ op = 3 ∨ op = 4 ∨ op = 5 ∨ op = 6 ∨ op = 7 := by
  revert op
  decide

theorem encode_arithOfOpcode (op : BitVec 3) (f : ArithFields) (c : Cond) :
    encode (arithOfOpcode op f c) = encodeArith op f c := by
  rcases opcode_cases op with rfl | rfl | rfl | rfl | rfl | rfl | rfl | rfl <;> rfl

theorem ofBool_eq_extract (w : Word) (i : Nat) (hi : i < 32) : BitVec.ofBool w[i] = w.extractLsb' i 1 := by
  ext j hj
  obtain rfl : j = 0 := by omega
  simp [BitVec.getLsbD_eq_getElem, hi]

/-- In format A all 32 bits are fields (30_encoding.md R63). -/
theorem encodeArith_fieldsOf {w : Word} (h31 : w[31] = false) :
    encodeArith (w.extractLsb' 28 3) (arithFieldsOf w) (condOf w) = w := by
  have htop : 0#1 = w.extractLsb' 31 1 := by rw [← ofBool_eq_extract w 31 (by decide), h31]; rfl
  simp only [encodeArith, arithFieldsOf, immOf, condOf, extract_sext10, Cond.code_ofCode]
  rw [htop, ofBool_eq_extract w 27 (by decide), ofBool_eq_extract w 26 (by decide)]
  simp (disch := decide) only [BitVec.extractLsb'_append_extractLsb'_eq_extractLsb']
  exact extract_whole w

/-- In format H all 32 bits are fields (30_encoding.md R65). -/
theorem encode_ldhi_fieldsOf {w : Word} (h31 : w[31] = true) (h30 : w[30] = false) :
    encode (.ldhi (zext22 (w.extractLsb' 8 22)) (w.extractLsb' 4 4) (condOf w)) = w := by
  have htop : 0b10#2 = w.extractLsb' 30 2 := by
    rw [← BitVec.extractLsb'_append_extractLsb'_eq_extractLsb' (len₂ := 1) (start₂ := 31) (len₁ := 1) (by decide),
      ← ofBool_eq_extract w 31 (by decide), ← ofBool_eq_extract w 30 (by decide), h31, h30]
    rfl
  have hconstant : (zext22 (w.extractLsb' 8 22)).extractLsb' 0 22 = w.extractLsb' 8 22 := by
    ext j hj
    have hlow : j < 32 := by omega
    simp [zext22, hj, hlow]
  simp only [encode, condOf, hconstant, Cond.code_ofCode]
  rw [htop]
  simp (disch := decide) only [BitVec.extractLsb'_append_extractLsb'_eq_extractLsb']
  exact extract_whole w

theorem encode_decode_arith {w : Word} (h31 : w[31] = false) : encode (decode w) = w := by
  rw [decode_arith h31, encode_arithOfOpcode, encodeArith_fieldsOf h31]

/-- Settles O2: the fields of a format A or H word, put side by side, are the word. -/
theorem fullWordsReencode : Obligations.FullWordsReencode := by
  intro w h
  cases h31 : w[31] with
  | false => exact encode_decode_arith h31
  | true =>
    have h30 : w[30] = false := by simpa [h31] using h
    rw [decode_loadHigh h31 h30, encode_ldhi_fieldsOf h31 h30]

/-- Settles O6, by running the decoder. -/
theorem decodeKnownWords : Obligations.DecodeKnownWords := by
  unfold Obligations.DecodeKnownWords
  decide

/-! ## The opcode table -/

/-- What the first row a word selects says of the word: the row's pattern, and for the WRITE row, which stands behind
the PUSH row of R70, a slot other than 14. -/
structure FirstRow (w : Word) (r : OpcodeRow) : Prop where
  mem     : r ∈ opcodeTable
  selects : w &&& r.mask = r.pattern
  slot    : r.mnemonic = "WRITE" → w.extractLsb' 4 4 ≠ 14#4

theorem OpcodeRow.selects_iff (r : OpcodeRow) (w : Word) : r.selects w = true ↔ w &&& r.mask = r.pattern := by
  simp [OpcodeRow.selects]

theorem and_eq_aliasRow {w : Word} (h : w &&& 0xC3C00000#32 = 0xC2000000#32) (hslot : w.extractLsb' 4 4 = 14#4) :
    w &&& 0xC3C000F0#32 = 0xC20000E0#32 := by
  have hmask : 0xC3C000F0#32 = 0xC3C00000#32 ||| 0xF0#32 := by decide
  have hlow : w &&& 0xF0#32 = 0#24 ++ w.extractLsb' 4 4 ++ 0#4 := by
    apply BitVec.eq_of_getLsbD_eq
    intro i hi
    simp only [BitVec.getLsbD_and, BitVec.getLsbD_append, BitVec.getLsbD_extractLsb', BitVec.getLsbD_zero]
    interval_cases i <;> simp
  rw [hmask, BitVec.and_or_distrib_left, h, hlow, hslot]
  decide

theorem firstRow_of_opcodeRowOf {w : Word} {r : OpcodeRow} (h : opcodeRowOf w = some r) : FirstRow w r := by
  obtain ⟨hsel, i, hi, hr, hbefore⟩ := List.find?_eq_some_iff_getElem.1 h
  refine ⟨List.mem_of_find?_eq_some h, (r.selects_iff w).1 hsel, fun hname hslot => ?slot⟩
  case slot =>
    have hwrite : ∀ k : Fin 18, (opcodeTable[k]).mnemonic = "WRITE" → k = 11 := by decide
    have h11 : i = 11 := congrArg Fin.val (hwrite ⟨i, hi⟩ (hr ▸ hname))
    subst h11
    subst hr
    have halias := and_eq_aliasRow (((opcodeTable[11]).selects_iff w).1 hsel) hslot
    have hnot := hbefore 10 (by decide)
    rw [((opcodeTable[10]).selects_iff w).2 halias] at hnot
    exact absurd hnot (by decide)

/-- The row that decides a word has the mnemonic of the decoded instruction. -/
theorem FirstRow.mnemonic_eq {w : Word} {r : OpcodeRow} (h : FirstRow w r) : (decode w).mnemonic = r.mnemonic := by
  obtain ⟨hmem, hsel, hslot⟩ := h
  simp only [opcodeTable, List.mem_cons, List.not_mem_nil, or_false] at hmem
  rcases hmem with rfl | rfl | rfl | rfl | rfl | rfl | rfl | rfl | rfl | rfl | rfl | rfl | rfl | rfl | rfl | rfl | rfl |
    rfl
  iterate 8 exact congrArg Instr.mnemonic (decode_arith_of_and_eq hsel (by decide))
  · exact congrArg Instr.mnemonic (decode_ldhi hsel)
  · exact congrArg Instr.mnemonic (decode_read hsel)
  · exact congrArg Instr.mnemonic (decode_pushAlias hsel)
  · exact congrArg Instr.mnemonic (decode_write hsel (hslot rfl))
  · exact congrArg Instr.mnemonic (decode_push hsel)
  · exact congrArg Instr.mnemonic (decode_pop hsel)
  · exact congrArg Instr.mnemonic (decode_halt (.inl hsel))
  · exact congrArg Instr.mnemonic (decode_halt (.inr (.inl hsel)))
  · exact congrArg Instr.mnemonic (decode_halt (.inr (.inr (.inl hsel))))
  · exact congrArg Instr.mnemonic (decode_halt (.inr (.inr (.inr hsel))))

/-- The class bits and the selector alone, `w[31:28]` and `w[25:22]`. -/
theorem and_classMask (w : Word) :
    w &&& 0xF3C00000#32 = w.extractLsb' 28 4 ++ 0#2 ++ w.extractLsb' 22 4 ++ 0#22 := by
  apply BitVec.eq_of_getLsbD_eq
  intro i hi
  simp only [BitVec.getLsbD_and, BitVec.getLsbD_append, BitVec.getLsbD_extractLsb', BitVec.getLsbD_zero]
  interval_cases i <;> simp

/-- The rows other than the PUSH row of R70 cover all words by their class bits and selector. -/
theorem rows_cover (top sel : BitVec 4) :
    (opcodeTable.eraseIdx 10).any (·.selects (top ++ 0#2 ++ sel ++ 0#22)) = true := by
  revert top sel
  decide

theorem opcodeRowOf_isSome (w : Word) : (opcodeRowOf w).isSome = true := by
  obtain ⟨r, hr, hsel⟩ := List.any_eq_true.1 (rows_cover (w.extractLsb' 28 4) (w.extractLsb' 22 4))
  have hmask : ∀ q ∈ opcodeTable.eraseIdx 10, 0xF3C00000#32 &&& q.mask = q.mask := by decide
  rw [← and_classMask, r.selects_iff, BitVec.and_assoc, hmask r hr] at hsel
  exact List.find?_isSome.2 ⟨r, List.mem_of_mem_eraseIdx hr, (r.selects_iff w).2 hsel⟩

/-- Two rows that one word selects agree where both masks look. -/
theorem patterns_agree {w : Word} {r q : OpcodeRow} (hr : r.selects w = true) (hq : q.selects w = true) :
    r.pattern &&& q.mask = q.pattern &&& r.mask := by
  rw [OpcodeRow.selects_iff] at hr hq
  rw [← hr, ← hq, BitVec.and_assoc, BitVec.and_assoc, BitVec.and_comm r.mask]

/-- The only two rows whose patterns agree where both masks look are the PUSH row of R70 and WRITE. -/
theorem overlapping_rows : ∀ i j : Fin 18, i < j →
    opcodeTable[i].pattern &&& opcodeTable[j].mask = opcodeTable[j].pattern &&& opcodeTable[i].mask →
    i = 10 ∧ j = 11 := by
  decide

/-- Settles O3: each row fixes the class it decodes to, and the masks rule out two rows for one word. -/
theorem decodeFollowsOpcodeTable : Obligations.DecodeFollowsOpcodeTable := by
  refine ⟨rfl, fun w => ?first, fun w i j r q hij hr hq hsr hsq => ?overlap, fun w r q hr hq hsel => ?subset⟩
  case first =>
    obtain ⟨r, hr⟩ := Option.isSome_iff_exists.1 (opcodeRowOf_isSome w)
    rw [hr, (firstRow_of_opcodeRowOf hr).mnemonic_eq, Option.map_some]
  case overlap =>
    obtain ⟨hi, rfl⟩ := List.getElem?_eq_some_iff.1 hr
    obtain ⟨hj, rfl⟩ := List.getElem?_eq_some_iff.1 hq
    obtain ⟨h10, h11⟩ := overlapping_rows ⟨i, hi⟩ ⟨j, hj⟩ hij (patterns_agree hsr hsq)
    obtain rfl : i = 10 := congrArg Fin.val h10
    obtain rfl : j = 11 := congrArg Fin.val h11
    exact ⟨rfl, rfl, rfl, rfl⟩
  case subset =>
    cases hr
    cases hq
    rw [OpcodeRow.selects_iff] at hsel ⊢
    have hmask : 0xC3C00000#32 = 0xC3C000F0#32 &&& 0xC3C00000#32 := by decide
    show w &&& 0xC3C00000#32 = 0xC2000000#32
    rw [hmask, ← BitVec.and_assoc, show w &&& 0xC3C000F0#32 = 0xC20000E0#32 from hsel]
    decide

/-! ## Ignored bits -/

/-- A field whose bits are all used is the same in two words that agree on the used bits. -/
theorem extract_eq_of_used {w w' u : Word} (h : w &&& u = w' &&& u) {i k : Nat}
    (hu : u.extractLsb' i k = BitVec.allOnes k) : w'.extractLsb' i k = w.extractLsb' i k :=
  (extract_eq_of_and_eq rfl hu).trans (extract_eq_of_and_eq h hu).symm

theorem condOf_eq_of_used {w w' u : Word} (h : w &&& u = w' &&& u) (hu : u.extractLsb' 0 4 = BitVec.allOnes 4) :
    condOf w' = condOf w := by
  rw [condOf, condOf, extract_eq_of_used h hu]

theorem immOf_eq_of_used {w w' u : Word} (h : w &&& u = w' &&& u) (hu : u.extractLsb' 16 10 = BitVec.allOnes 10) :
    immOf w' = immOf w := by
  rw [immOf, immOf, extract_eq_of_used h hu]

/-- Words that agree on the bits their row uses decode alike (30_encoding.md R80). -/
theorem FirstRow.decode_eq {w w' : Word} {r : OpcodeRow} (h : FirstRow w r) (hused : w &&& r.used = w' &&& r.used) :
    decode w' = decode w := by
  obtain ⟨hmem, hsel, hslot⟩ := h
  have hmasks : ∀ q ∈ opcodeTable, q.used &&& q.mask = q.mask := by decide
  have hsel' : w' &&& r.mask = r.pattern := by
    rw [← hsel, ← hmasks r hmem, ← BitVec.and_assoc, ← BitVec.and_assoc, hused]
  by_cases hall : r.used = BitVec.allOnes 32
  · rw [hall, BitVec.and_allOnes, BitVec.and_allOnes] at hused
    rw [hused]
  have hcond : condOf w' = condOf w := by
    refine condOf_eq_of_used hused ?_
    clear hslot hsel hsel' hused hall
    revert r
    decide
  simp only [opcodeTable, List.mem_cons, List.not_mem_nil, or_false] at hmem
  rcases hmem with rfl | rfl | rfl | rfl | rfl | rfl | rfl | rfl | rfl | rfl | rfl | rfl | rfl | rfl | rfl | rfl | rfl |
    rfl
  iterate 9 exact absurd rfl hall
  · rw [decode_read hsel', decode_read hsel, hcond, immOf_eq_of_used hused (by decide),
      extract_eq_of_used hused (by decide), extract_eq_of_used hused (by decide)]
  · rw [decode_pushAlias hsel', decode_pushAlias hsel, hcond, extract_eq_of_used hused (by decide)]
  · have hslot' : w'.extractLsb' 4 4 ≠ 14#4 := extract_eq_of_used hused (i := 4) (k := 4) (by decide) ▸ hslot rfl
    rw [decode_write hsel' hslot', decode_write hsel (hslot rfl), hcond, immOf_eq_of_used hused (by decide),
      extract_eq_of_used hused (by decide), extract_eq_of_used hused (by decide)]
  · rw [decode_push hsel', decode_push hsel, hcond, extract_eq_of_used hused (by decide)]
  · rw [decode_pop hsel', decode_pop hsel, hcond, extract_eq_of_used hused (by decide)]
  · rw [decode_halt (.inl hsel'), decode_halt (.inl hsel), hcond]
  · rw [decode_halt (.inr (.inl hsel')), decode_halt (.inr (.inl hsel)), hcond]
  · rw [decode_halt (.inr (.inr (.inl hsel'))), decode_halt (.inr (.inr (.inl hsel))), hcond]
  · rw [decode_halt (.inr (.inr (.inr hsel'))), decode_halt (.inr (.inr (.inr hsel))), hcond]

/-- The bits that the encoder may set in the word of an instruction. -/
def encoderBits : Instr → Word
  | .or _ _ | .xor _ _ | .and _ _ | .andn _ _ | .unassigned _ _ | .rol _ _ | .add _ _ | .sub _ _ => BitVec.allOnes 32
  | .ldhi _ _ _ => BitVec.allOnes 32
  | .read _ _ _ _ => 0b11#2 ++ 0#4 ++ 0b0000#4 ++ BitVec.allOnes 6 ++ 0#4 ++ BitVec.allOnes 4 ++ BitVec.allOnes 4 ++
      BitVec.allOnes 4
  | .write _ _ _ _ => 0b11#2 ++ 0#4 ++ 0b1000#4 ++ BitVec.allOnes 6 ++ BitVec.allOnes 4 ++ BitVec.allOnes 4 ++ 0#4 ++
      BitVec.allOnes 4
  | .push _ _ => 0b11#2 ++ 0#4 ++ 0b0001#4 ++ 0#6 ++ BitVec.allOnes 4 ++ 0#8 ++ BitVec.allOnes 4
  | .pop _ _ => 0b11#2 ++ 0#4 ++ 0b0100#4 ++ 0#14 ++ BitVec.allOnes 4 ++ BitVec.allOnes 4
  | .halt _ => 0b11#2 ++ 0#4 ++ 0b0010#4 ++ 0#18 ++ BitVec.allOnes 4

theorem encode_and_encoderBits (i : Instr) : encode i &&& encoderBits i = encode i := by
  cases i with
  | read off a d c =>
    show (0b11#2 ++ 0#4 ++ 0b0000#4 ++ off.extractLsb' 0 6 ++ 0#4 ++ a ++ d ++ c.code) &&& (0b11#2 ++ 0#4 ++ 0b0000#4 ++
      BitVec.allOnes 6 ++ 0#4 ++ BitVec.allOnes 4 ++ BitVec.allOnes 4 ++ BitVec.allOnes 4) = _
    simp only [BitVec.and_append, BitVec.and_allOnes, BitVec.and_self]
    rfl
  | write off a b c =>
    show (0b11#2 ++ 0#4 ++ 0b1000#4 ++ off.extractLsb' 0 6 ++ b ++ a ++ 0#4 ++ c.code) &&& (0b11#2 ++ 0#4 ++ 0b1000#4 ++
      BitVec.allOnes 6 ++ BitVec.allOnes 4 ++ BitVec.allOnes 4 ++ 0#4 ++ BitVec.allOnes 4) = _
    simp only [BitVec.and_append, BitVec.and_allOnes, BitVec.and_self]
    rfl
  | push a c =>
    show (0b11#2 ++ 0#4 ++ 0b0001#4 ++ 0#6 ++ a ++ 0#8 ++ c.code) &&& (0b11#2 ++ 0#4 ++ 0b0001#4 ++ 0#6 ++
      BitVec.allOnes 4 ++ 0#8 ++ BitVec.allOnes 4) = _
    simp only [BitVec.and_append, BitVec.and_allOnes, BitVec.and_self]
    rfl
  | pop d c =>
    show (0b11#2 ++ 0#4 ++ 0b0100#4 ++ 0#14 ++ d ++ c.code) &&& (0b11#2 ++ 0#4 ++ 0b0100#4 ++ 0#14 ++
      BitVec.allOnes 4 ++ BitVec.allOnes 4) = _
    simp only [BitVec.and_append, BitVec.and_allOnes, BitVec.and_self]
    rfl
  | halt c => cases c <;> rfl
  | _ => exact BitVec.and_allOnes

/-- No row of an instruction's mnemonic ignores a bit that the encoder may set. -/
theorem encoderBits_used {i : Instr} {r : OpcodeRow} (hr : r ∈ opcodeTable) (hname : i.mnemonic = r.mnemonic) :
    encoderBits i &&& ~~~r.used = 0#32 := by
  revert r
  cases i <;> simp only [encoderBits, Instr.mnemonic] <;> decide

theorem encode_selects_row (i : Instr) : (opcodeRowOf (encode i)).map (·.mnemonic) = some i.mnemonic := by
  cases i with
  | or f c => exact Laws.EncodesToRow.or f c
  | xor f c => exact Laws.EncodesToRow.xor f c
  | and f c => exact Laws.EncodesToRow.and f c
  | andn f c => exact Laws.EncodesToRow.andn f c
  | unassigned f c => exact Laws.EncodesToRow.unassigned f c
  | rol f c => exact Laws.EncodesToRow.rol f c
  | add f c => exact Laws.EncodesToRow.add f c
  | sub f c => exact Laws.EncodesToRow.sub f c
  | ldhi k d c => exact Laws.EncodesToRow.ldhi k d c
  | read off a d c => exact Laws.EncodesToRow.read off a d c
  | write off a b c => exact Laws.EncodesToRow.write off a b c
  | push a c => exact Laws.EncodesToRow.push a c
  | pop d c => exact Laws.EncodesToRow.pop d c
  | halt c => exact Laws.EncodesToRow.halt c

/-- Settles O4: every field the decoder takes lies in the bits its row uses. -/
theorem ignoredBitsDoNotMatter : Obligations.IgnoredBitsDoNotMatter := by
  refine ⟨fun w w' r hr hused => ?decoded, fun i r hr => ?encoded, fun off a b c => ?slot⟩
  case decoded =>
    have hdecode := (firstRow_of_opcodeRowOf hr).decode_eq hused
    exact ⟨hdecode, fun s => by rw [hdecode]⟩
  case encoded =>
    have hname : i.mnemonic = r.mnemonic := by simpa [hr, eq_comm] using encode_selects_row i
    rw [← encode_and_encoderBits, BitVec.and_assoc, encoderBits_used (firstRow_of_opcodeRowOf hr).mem hname,
      BitVec.and_zero]
  case slot =>
    unfold encode
    simp (disch := decide) only [extract_append_high, extract_append_low, extract_whole, Nat.reduceSub]

end Sys2Proof
end

section
/-! PROOFS. O8 to O20, O22, O50 and O51: the condition evaluator (40_condition.md), the Arithmetic class
(41_arithmetic.md), LDHI (42_loadhigh.md), and the instruction pairs built from them. -/

namespace Sys2Proof.Machine

/-! ## The condition evaluator -/

/-- Settles O8, over the sixteen flag states of each code. -/
theorem conditionTable : Obligations.ConditionTable := by
  refine ⟨fun table f => rfl, rfl, fun f c => ?_⟩
  obtain ⟨n, z, carry, o⟩ := f
  cases c <;> revert n z carry o <;> decide

/-- Settles O9, over the sixteen flag states of each code. -/
theorem oddCodesComplementEvenCodes : Obligations.OddCodesComplementEvenCodes := by
  rintro c ⟨n, z, carry, o⟩
  cases c <;> revert n z carry o <;> decide

/-! ## The Arithmetic shape -/

/-- All that the state after an Arithmetic instruction differs in (41_arithmetic.md R120, R129). -/
theorem storeResult_effect (f : ArithFields) (x : AluResult) (s : State) :
    AluEffect f s (storeResult f x s).advance x.result x.carry x.overflow where
  destination := by simp [storeResult_reg]
  registers r hr := by
    have hd : r ≠ f.regD := by simpa using hr
    simp [storeResult_reg, hd]
  flagsSet hset := by
    rw [State.advance_flags, storeResult_flags, if_pos hset]
    rfl
  flagsKept hset := by simp [storeResult_flags, hset]
  pc := by simp [pcStep]
  memory _ := by simp
  streams := ⟨by simp, by simp⟩
  control := ⟨by simp, by simp, by simp⟩

/-- Settles O12. -/
theorem orInstruction : Obligations.OrInstruction :=
  ⟨fun _ h => decode_arith_of_and_eq h (by decide), fun f _ s hc => ⟨_, exec_or hc f, storeResult_effect f _ s⟩⟩

/-- Settles O13. -/
theorem xorInstruction : Obligations.XorInstruction :=
  ⟨fun _ h => decode_arith_of_and_eq h (by decide), fun f _ s hc => ⟨_, exec_xor hc f, storeResult_effect f _ s⟩⟩

/-- Settles O14. -/
theorem andInstruction : Obligations.AndInstruction :=
  ⟨fun _ h => decode_arith_of_and_eq h (by decide), fun f _ s hc => ⟨_, exec_and hc f, storeResult_effect f _ s⟩⟩

/-- Settles O15. -/
theorem andnInstruction : Obligations.AndnInstruction := by
  refine ⟨fun _ h => decode_arith_of_and_eq h (by decide), rfl, fun f c s hc =>
    ⟨_, exec_andn hc f, fun hb => ?_, fun ha => ?_⟩⟩
  · rw [hb]
    exact storeResult_effect f (aluAndn .b _ _) s
  · rw [ha]
    exact storeResult_effect f (aluAndn .a _ _) s

/-! ## ROL -/

/-- Bit `k` of a rotation is the bit `n` places below it, cyclically. -/
theorem getLsbD_rotl32 (v : Word) {n k : Nat} (hn : n < 32) (hk : k < 32) :
    (rotl32 v n).getLsbD k = v.getLsbD ((k + 32 - n) % 32) := by
  rw [rotl32, BitVec.getLsbD_or, BitVec.getLsbD_shiftLeft, BitVec.getLsbD_ushiftRight]
  by_cases h : k < n
  · have hmod : (k + 32 - n) % 32 = 32 - n + k := by omega
    simp [h, hmod]
  · have hmod : (k + 32 - n) % 32 = k - n := by omega
    have hout : v.getLsbD (32 - n + k) = false := BitVec.getLsbD_of_ge v _ (by omega)
    simp [h, hk, hmod, hout]

/-- The rotation amount, `A[4:0]`. -/
theorem toNat_extract_low5 (a : Word) : (a.extractLsb' 0 5).toNat = a.toNat % 32 := by
  simp [BitVec.extractLsb'_toNat]

theorem getLsbD_aluRol (a b : Word) {k : Nat} (hk : k < 32) :
    (aluRol a b).result.getLsbD k = b.getLsbD ((k + 32 - a.toNat % 32) % 32) := by
  rw [← toNat_extract_low5]
  exact getLsbD_rotl32 b (a.extractLsb' 0 5).isLt hk

/-- Settles O16, by the bits of the rotation. -/
theorem rolInstruction : Obligations.RolInstruction :=
  ⟨fun _ h => decode_arith_of_and_eq h (by decide), fun f _ s hc =>
    ⟨_, _, exec_rol hc f, fun _ hk => getLsbD_aluRol (operandA f s) (operandB f s) hk,
      storeResult_effect f (aluRol (operandA f s) (operandB f s)) s⟩⟩

/-! ## ADD and SUB -/

theorem toNat_addCarry_sum (a b : Word) (carryIn : BitVec 33) (h : carryIn.toNat ≤ 1) :
    (a.zeroExtend 33 + b.zeroExtend 33 + carryIn).toNat = a.toNat + b.toNat + carryIn.toNat := by
  have ha := a.isLt
  have hb := b.isLt
  simp only [BitVec.truncate_eq_setWidth, BitVec.toNat_add, BitVec.toNat_setWidth]
  omega

theorem addCarry_result (a b : Word) (carryIn : BitVec 33) (h : carryIn.toNat ≤ 1) :
    (addCarry a b carryIn).result.toNat = (a.toNat + b.toNat + carryIn.toNat) % 2 ^ 32 := by
  show ((a.zeroExtend 33 + b.zeroExtend 33 + carryIn).extractLsb' 0 32).toNat = _
  rw [BitVec.extractLsb'_toNat, toNat_addCarry_sum a b carryIn h, Nat.shiftRight_zero]

theorem addCarry_carry (a b : Word) (carryIn : BitVec 33) (h : carryIn.toNat ≤ 1) :
    (addCarry a b carryIn).carry = decide (2 ^ 32 ≤ a.toNat + b.toNat + carryIn.toNat) := by
  rw [← toNat_addCarry_sum a b carryIn h]
  exact BitVec.getLsbD_last _

theorem aluAdd_result (a b : Word) : (aluAdd a b).result = a + b := by
  apply BitVec.eq_of_toNat_eq
  rw [aluAdd, addCarry_result a b _ (by decide), BitVec.toNat_add]
  rfl

theorem aluSub_result (a b : Word) : (aluSub a b).result = a - b := by
  apply BitVec.eq_of_toNat_eq
  have hb := b.isLt
  rw [aluSub, addCarry_result a _ _ (by decide), BitVec.toNat_sub, BitVec.toNat_not, BitVec.toNat_ofNat]
  omega

theorem aluAdd_carry (a b : Word) : (aluAdd a b).carry = decide (2 ^ 32 ≤ a.toNat + b.toNat) :=
  addCarry_carry a b _ (by decide)

/-- SUB carries exactly when there is no borrow (41_arithmetic.md R127). -/
theorem aluSub_carry (a b : Word) : (aluSub a b).carry = decide (b.toNat ≤ a.toNat) := by
  have hb := b.isLt
  rw [aluSub, addCarry_carry a _ _ (by decide), BitVec.toNat_not, decide_eq_decide, BitVec.toNat_ofNat]
  omega

theorem aluAdd_overflow (a b : Word) : (aluAdd a b).overflow = (a[31] == b[31] && (a + b)[31] != a[31]) := by
  rw [← aluAdd_result]
  rfl

theorem aluSub_overflow (a b : Word) : (aluSub a b).overflow = (a[31] == (~~~b)[31] && (a - b)[31] != a[31]) := by
  rw [← aluSub_result]
  rfl

/-- The sign bit. -/
theorem bit31_eq_decide (v : Word) : v[31] = decide (v.toInt < 0) := by
  rw [← BitVec.msb_eq_toInt]
  rfl

theorem toInt_bounds (v : Word) : -2 ^ 31 ≤ v.toInt ∧ v.toInt < 2 ^ 31 := ⟨v.le_toInt, v.toInt_lt⟩

/-- A signed number wrapped to 32 bits, for the sums and differences of two words. -/
theorem bmod_cases {x : Int} (hlow : -2 ^ 32 ≤ x) (hhigh : x < 2 ^ 32) :
    x.bmod (2 ^ 32) = x ∨ x.bmod (2 ^ 32) = x - 2 ^ 32 ∨ x.bmod (2 ^ 32) = x + 2 ^ 32 := by
  rw [Int.bmod_def]
  split <;> omega

theorem toInt_add_cases (a b : Word) :
    (a + b).toInt = a.toInt + b.toInt ∨ (a + b).toInt = a.toInt + b.toInt - 2 ^ 32 ∨
      (a + b).toInt = a.toInt + b.toInt + 2 ^ 32 := by
  have ha := toInt_bounds a
  have hb := toInt_bounds b
  rw [BitVec.toInt_add]
  exact bmod_cases (by omega) (by omega)

theorem toInt_sub_cases (a b : Word) :
    (a - b).toInt = a.toInt - b.toInt ∨ (a - b).toInt = a.toInt - b.toInt - 2 ^ 32 ∨
      (a - b).toInt = a.toInt - b.toInt + 2 ^ 32 := by
  have ha := toInt_bounds a
  have hb := toInt_bounds b
  rw [BitVec.toInt_sub]
  exact bmod_cases (by omega) (by omega)

/-- ADD overflows exactly when the signed sum is out of range (41_arithmetic.md R126). -/
theorem aluAdd_overflow_iff (a b : Word) :
    (aluAdd a b).overflow = true ↔ a.toInt + b.toInt < -2 ^ 31 ∨ 2 ^ 31 ≤ a.toInt + b.toInt := by
  have ha := toInt_bounds a
  have hb := toInt_bounds b
  have hr := toInt_bounds (a + b)
  have hsum := toInt_add_cases a b
  rw [aluAdd_overflow, bit31_eq_decide, bit31_eq_decide, bit31_eq_decide, Bool.and_eq_true, beq_iff_eq,
    bne_iff_ne, ne_eq, decide_eq_decide, decide_eq_decide]
  omega

theorem bit31_not (v : Word) : (~~~v)[31] = decide (0 ≤ v.toInt) := by
  rw [BitVec.getElem_not, bit31_eq_decide, ← decide_not, decide_eq_decide, Int.not_lt]

/-- SUB overflows exactly when the signed difference is out of range (41_arithmetic.md R127). -/
theorem aluSub_overflow_iff (a b : Word) :
    (aluSub a b).overflow = true ↔ a.toInt - b.toInt < -2 ^ 31 ∨ 2 ^ 31 ≤ a.toInt - b.toInt := by
  have ha := toInt_bounds a
  have hb := toInt_bounds b
  have hr := toInt_bounds (a - b)
  have hdiff := toInt_sub_cases a b
  rw [aluSub_overflow, bit31_not, bit31_eq_decide, bit31_eq_decide, Bool.and_eq_true, beq_iff_eq,
    bne_iff_ne, ne_eq, decide_eq_decide, decide_eq_decide]
  omega

/-- Settles O17, by the 33-bit sum and the signed range of its operands. -/
theorem addInstruction : Obligations.AddInstruction := by
  refine ⟨fun _ h => decode_arith_of_and_eq h (by decide), ?_⟩
  rintro f c s a b hc rfl rfl
  refine ⟨_, _, exec_add hc f, ?_, aluAdd_overflow _ _, aluAdd_overflow_iff _ _⟩
  rw [← aluAdd_result, ← aluAdd_carry]
  exact storeResult_effect f (aluAdd (operandA f s) (operandB f s)) s

/-- Settles O18, by the 33-bit sum with the complement and the signed range of the operands. -/
theorem subInstruction : Obligations.SubInstruction := by
  refine ⟨fun _ h => decode_arith_of_and_eq h (by decide), ?_⟩
  rintro f c s a b hc rfl rfl
  refine ⟨_, _, exec_sub hc f, ?_, aluSub_overflow _ _, aluSub_overflow_iff _ _⟩
  rw [← aluSub_result, ← aluSub_carry]
  exact storeResult_effect f (aluSub (operandA f s) (operandB f s)) s

/-! ## Conditions after SUB -/

/-- After a comparison, Z says whether the operands are equal. -/
theorem aluSub_z (a b : Word) : (aluSub a b).flags.z = decide (a = b) := by
  have hz : a - b = 0#32 ↔ a = b := BitVec.sub_eq_iff_eq_add.trans (by rw [BitVec.zero_add])
  show ((aluSub a b).result == 0#32) = _
  rw [aluSub_result, ← decide_eq_decide.2 hz]
  rfl

theorem aluSub_n_iff (a b : Word) : (aluSub a b).flags.n = true ↔ (a - b).toInt < 0 := by
  have hn : (aluSub a b).flags.n = decide ((a - b).toInt < 0) := by
    rw [← bit31_eq_decide, ← aluSub_result]
    rfl
  rw [hn, decide_eq_true_iff]

/-- After a comparison, N and O differ exactly when A is below B as a signed number. -/
theorem aluSub_n_bne_o (a b : Word) : ((aluSub a b).flags.n != (aluSub a b).flags.o) = decide (a.toInt < b.toInt) := by
  have ha := toInt_bounds a
  have hb := toInt_bounds b
  have hr := toInt_bounds (a - b)
  have hdiff := toInt_sub_cases a b
  have ho : (aluSub a b).flags.o = true ↔ _ := aluSub_overflow_iff a b
  rw [Bool.eq_iff_iff, bne_iff_ne, ne_eq, Bool.eq_iff_iff, aluSub_n_iff, ho, decide_eq_true_iff]
  omega

theorem aluSub_n_beq_o (a b : Word) : ((aluSub a b).flags.n == (aluSub a b).flags.o) = decide (b.toInt ≤ a.toInt) := by
  rw [← Bool.not_not (_ == _), ← bne, aluSub_n_bne_o, ← decide_not, decide_eq_decide, Int.not_lt]

theorem aluSub_c (a b : Word) : (aluSub a b).flags.c = decide (b.toNat ≤ a.toNat) := aluSub_carry a b

/-- Settles O10: each relational condition's flag expression, over what SUB leaves in the flags. -/
theorem conditionsCompareAfterSub : Obligations.ConditionsCompareAfterSub := by
  intro f c s hset hc htable
  refine ⟨_, exec_sub hc f, ?_⟩
  generalize operandA f s = a
  generalize operandB f s = b
  have hpass (q : Cond) : condPass q (storeResult f (aluSub a b) s).advance =
      condHolds defaultCondTable q (aluSub a b).flags := by
    rw [condPass, State.advance_cfg, storeResult_cfg, htable, State.advance_flags, storeResult_flags, if_pos hset]
  have hnat : a = b ↔ a.toNat = b.toNat := BitVec.toNat_inj.symm
  have hint : a = b ↔ a.toInt = b.toInt := BitVec.toInt_inj.symm
  obtain ⟨-, -, hcond⟩ := conditionTable
  simp only [hpass, hcond, aluSub_z, aluSub_c, aluSub_n_bne_o, aluSub_n_beq_o, Bool.and_eq_true,
    Bool.or_eq_true, Bool.not_eq_true', decide_eq_true_eq, decide_eq_false_iff_not]
  refine ⟨trivial, trivial, trivial, ?lu, ?gu, ?leu, trivial, trivial, ?g, ?le⟩
  case lu => omega
  case gu => rw [hnat]; omega
  case leu => rw [hnat]; omega
  case g => rw [hint]; omega
  case le => rw [hint]; omega

/-- Settles O11: gating, and `???`, which is not gated. -/
theorem failedConditionDoesNothing : Obligations.FailedConditionDoesNothing :=
  ⟨fun _ _ hi hc => exec_of_condPass_false hi hc, fun f c s _ => ⟨_, exec_unassigned f c s⟩⟩

/-! ## The unassigned opcode -/

/-- The words of Arithmetic opcode 4, by their top four bits. -/
theorem illegalPattern_iff_extract (w : Word) : w &&& 0xF0000000#32 = 0x40000000#32 ↔ w.extractLsb' 28 4 = 4#4 := by
  have htop : w &&& 0xF0000000#32 = w.extractLsb' 28 4 ++ 0#28 := by
    apply BitVec.eq_of_getLsbD_eq
    intro i hi
    simp only [BitVec.getLsbD_and, BitVec.getLsbD_append, BitVec.getLsbD_extractLsb', BitVec.getLsbD_zero]
    interval_cases i <;> simp
  refine ⟨fun h => extract_eq_of_and_eq h (by decide), fun h => ?_⟩
  rw [htop, h]
  rfl

/-- The words of Arithmetic opcode 4 are 0x40000000 to 0x4FFFFFFF (60_exceptions.md R191). -/
theorem illegalPattern_iff_range (w : Word) :
    w &&& 0xF0000000#32 = 0x40000000#32 ↔ 0x40000000 ≤ w.toNat ∧ w.toNat ≤ 0x4FFFFFFF := by
  have hlt := w.isLt
  rw [illegalPattern_iff_extract, ← BitVec.toNat_inj, BitVec.extractLsb'_toNat, Nat.shiftRight_eq_div_pow,
    BitVec.toNat_ofNat]
  omega

theorem opcodeOf_arithOfOpcode (op : BitVec 3) (f : ArithFields) (c : Cond) :
    opcodeOf (arithOfOpcode op f c) = some op := by
  rcases opcode_cases op with rfl | rfl | rfl | rfl | rfl | rfl | rfl | rfl <;> rfl

theorem decodeMemoryClass_opcodeOf (w : Word) : opcodeOf (decodeMemoryClass w) = none := by
  unfold decodeMemoryClass
  repeat' split
  all_goals rfl

theorem opcodeOf_decode (w : Word) :
    opcodeOf (decode w) = if w[31] = false then some (w.extractLsb' 28 3) else none := by
  cases h31 : w[31] with
  | false => rw [decode_arith h31, opcodeOf_arithOfOpcode, if_pos rfl]
  | true =>
    cases h30 : w[30] with
    | false => rw [decode_loadHigh h31 h30]; rfl
    | true => rw [decode_memoryClass h31 h30, decodeMemoryClass_opcodeOf]; rfl

theorem opcodeOf_decode_eq_four_iff (w : Word) :
    opcodeOf (decode w) = some 4#3 ↔ w &&& 0xF0000000#32 = 0x40000000#32 := by
  have htop : w.extractLsb' 28 4 = BitVec.ofBool w[31] ++ w.extractLsb' 28 3 := by
    rw [ofBool_eq_extract w 31 (by decide), BitVec.extractLsb'_append_extractLsb'_eq_extractLsb' (by decide)]
  rw [opcodeOf_decode, illegalPattern_iff_extract, htop]
  generalize w.extractLsb' 28 3 = op
  cases w[31] <;> revert op <;> decide

theorem decode_unassigned {w : Word} (h : w &&& 0xF0000000#32 = 0x40000000#32) :
    decode w = .unassigned (arithFieldsOf w) (condOf w) := decode_arith_of_and_eq h (by decide)

/-- The recorded word is the executed one (41_arithmetic.md R128, log entry 15). -/
theorem exec_illegalWord {w : Word} (h : w &&& 0xF0000000#32 = 0x40000000#32) (s : State) :
    exec (decode w) s = .next { s with fault := some ⟨.illegalInstruction, w⟩ } := by
  have h31 : w[31] = false := getElem_eq_of_and_eq h (by decide)
  have hword : encodeArith 4 (arithFieldsOf w) (condOf w) = w := by
    have hencode := encode_decode_arith h31
    rwa [decode_unassigned h] at hencode
  rw [decode_unassigned h, exec_unassigned, hword]
  rfl

/-- Settles O19: the pattern, the opcode port and the fault all say that the opcode field is 4. -/
theorem unassignedOpcodeRaises : Obligations.UnassignedOpcodeRaises := by
  refine ⟨fun _ => decode_unassigned, fun w => ?_, exec_unassigned, fun _ s h => exec_illegalWord h s⟩
  rw [← opcodeOf_decode_eq_four_iff]
  exact beq_iff_eq

/-- Settles O20: the range is the pattern of opcode 4, and no other effect records an IllegalInstruction. -/
theorem illegalInstructionWords : Obligations.IllegalInstructionWords := by
  intro s w hr hf
  rw [step_of_fetch hr hf, ← illegalPattern_iff_range]
  refine ⟨fun h => ⟨⟨_, _, decode_unassigned h⟩, exec_illegalWord h s⟩, fun hnot t x ht hx => ?_⟩
  obtain ⟨-, hfault⟩ := s.running_iff.1 hr
  cases exec_effect ht with
  | illegal f c hi => exact hnot ((opcodeOf_decode_eq_four_iff w).1 (congrArg opcodeOf hi))
  | readFaulted | writeFaulted | pushFaulted | popFaulted => cases hx
  | _ => simp [hfault] at hx

/-! ## LDHI -/

/-- All that the state after a load into a register differs in. -/
theorem setReg_effect (s : State) (d : Reg) (v : Word) (rest : List Byte) :
    RegisterEffect s ((s.withInput rest).setReg d v).advance d v where
  destination := by simp
  registers r hr := by
    have hd : r ≠ d := by simpa using hr
    exact State.reg_setReg_ne (s.withInput rest) v hd
  flags := rfl
  pc := rfl
  memory _ := rfl
  output := rfl
  control := ⟨rfl, rfl, rfl⟩

/-- The constant above ten zero bits (42_loadhigh.md R150). -/
theorem zeroExtend_shiftLeft_10 (k : BitVec 22) : k.zeroExtend 32 <<< 10 = k ++ 0#10 := by
  apply BitVec.eq_of_toNat_eq
  have hk := k.isLt
  simp only [BitVec.truncate_eq_setWidth, BitVec.toNat_shiftLeft, BitVec.toNat_setWidth, BitVec.toNat_append,
    BitVec.toNat_ofNat, Nat.zero_mod, Nat.or_zero, Nat.shiftLeft_eq]
  omega

/-- Settles O22. -/
theorem ldhiInstruction : Obligations.LdhiInstruction := by
  refine ⟨fun _ h => decode_ldhi h, fun k d c s hc => ⟨_, exec_ldhi hc _ d, ?_, rfl⟩⟩
  rw [zeroExtend_shiftLeft_10]
  exact setReg_effect s d _ s.input

/-! ## Idioms -/

/-- Settles O50. -/
theorem zeroWithoutReadingOne : Obligations.ZeroWithoutReadingOne := by
  refine fun s b d c hc => ⟨⟨_, exec_and hc _, ?and⟩, ⟨_, exec_ldhi hc _ d, ?ldhi⟩, ⟨_, exec_xor hc _, ?xor⟩⟩
  case and => exact (storeResult_effect _ _ s).destination.trans BitVec.zero_and
  case ldhi => exact State.reg_setReg_self s d _
  case xor => exact (storeResult_effect _ _ s).destination.trans BitVec.xor_self

theorem toNat_append_10 (x : BitVec 22) (y : BitVec 10) : (x ++ y).toNat = x.toNat * 2 ^ 10 + y.toNat := by
  rw [BitVec.toNat_append, ← Nat.shiftLeft_add_eq_or_of_lt y.isLt, Nat.shiftLeft_eq]

theorem extract_append_extract_10 (K : Word) : K.extractLsb' 10 22 ++ K.extractLsb' 0 10 = K := by
  rw [BitVec.extractLsb'_append_extractLsb'_eq_extractLsb' (by decide)]
  exact extract_whole K

/-- With K[9] = 0 the sign extension adds nothing above the low ten bits (30_encoding.md R89). -/
theorem sext10_or_high {low : BitVec 10} (h : low[9] = false) (high : BitVec 22) :
    sext10 low ||| (high ++ 0#10) = high ++ low := by
  rw [sext10_eq_append, h, BitVec.or_append]
  simp

/-- With K[9] = 1 the sign extension subtracts one from the upper 22 bits, which the raised constant makes good. -/
theorem sext10_add_high {low : BitVec 10} (h : low[9] = true) (high : BitVec 22) :
    sext10 low + ((high + 1#22) ++ 0#10) = high ++ low := by
  have hhigh := high.isLt
  have hlow := low.isLt
  apply BitVec.eq_of_toNat_eq
  rw [sext10_eq_append, h, if_pos rfl, BitVec.toNat_add, toNat_append_10, toNat_append_10, toNat_append_10,
    BitVec.toNat_add, BitVec.toNat_allOnes, BitVec.toNat_ofNat, BitVec.toNat_ofNat]
  omega

/-- Settles O51, by what the sign extension of the low ten bits adds to the loaded upper 22. -/
theorem anyConstantInTwoInstructions : Obligations.AnyConstantInTwoInstructions := by
  intro K d c s hc
  have hbit : (K.extractLsb' 0 10)[9] = K[9] := by simp
  have hreg (k : BitVec 22) : (s.setReg d (k.zeroExtend 32 <<< 10)).advance.reg d = k ++ 0#10 := by
    rw [State.advance_reg, State.reg_setReg_self, zeroExtend_shiftLeft_10]
  have hc' (k : Word) : condPass c (s.setReg d k).advance = true := hc
  refine ⟨fun h => ⟨_, _, exec_ldhi hc _ d, exec_or (hc' _) _, ?or⟩,
    fun h => ⟨_, _, exec_ldhi hc _ d, exec_add (hc' _) _, ?add⟩⟩
  case or =>
    refine (storeResult_effect _ _ _).destination.trans ?_
    show sext10 _ ||| State.reg _ d = K
    rw [hreg, sext10_or_high (hbit.trans h), extract_append_extract_10]
  case add =>
    refine (storeResult_effect _ _ _).destination.trans ?_
    rw [aluAdd_result]
    show sext10 _ + State.reg _ d = K
    rw [hreg, sext10_add_high (hbit.trans h), extract_append_extract_10]

end Sys2Proof.Machine
end

section
/-! PROOFS. O23 to O30, data memory and the stack: addresses (20_memory.md R42), word accesses (R44), the canonical
form, READ and WRITE (43_memory_access.md), PUSH and POP (44_stack.md). -/

namespace Sys2Proof.Machine

/-! ## Addresses -/

theorem pushAddress_toNat (s : State) : (pushAddress s).toNat = ((s.reg spReg).toNat + 2 ^ 32 - 4) % 2 ^ 32 := by
  have hlt := (s.reg spReg).isLt
  rw [pushAddress, stackStep, BitVec.toNat_sub, BitVec.toNat_ofNat]
  omega

/-- Settles O23. -/
theorem addressesWrap : Obligations.AddressesWrap := by
  refine ⟨fun a off s => BitVec.toNat_add .., fun s => ⟨pushAddress_toNat s, rfl⟩, fun a s h => ?_⟩
  rw [effectiveAddress, h]
  rfl

/-! ## Word accesses -/

theorem memValid_iff (cfg : Config) (addr : Word) :
    memValid cfg addr = true ↔ ∃ r ∈ cfg.memMap, r.base ≤ addr.toNat ∧ addr.toNat < r.base + 4 * r.words := by
  simp [memValid]

theorem memRefused_eq_false_iff (cfg : Config) (op : MemOp) (addr : Word) :
    memRefused cfg op addr = false ↔ (op, addr) ∉ cfg.memRefuses := by
  rw [memRefused, ← Bool.not_eq_true, List.contains_iff_mem]

/-- Two words at different multiples of 4 do not overlap, so a store at one leaves a load at the other. -/
theorem memRead_storeWord_ne {s : State} {addr addr' : Word} (v : Word) (ha : addr.toNat % 4 = 0) (hne : addr' ≠ addr) :
    memRead (s.storeWord addr v) addr' = memRead s addr' := by
  cases hok : memOk s.cfg .read addr' with
  | false => rw [(memRead_eq_none_iff _ _).2 hok, (memRead_eq_none_iff (s.storeWord addr v) _).2 hok]
  | true =>
    have ha' := ((memOk_iff _ _ _).1 hok).1
    have hne' : addr'.toNat ≠ addr.toNat := fun h => hne (BitVec.eq_of_toNat_eq h)
    rw [memRead, State.storeWord_cfg, if_pos hok, memRead, if_pos hok, State.storeWord_mem,
      Memory.readWord_writeWord_outside _ _ _ _ _ (by omega)]

/-- Settles O26: words at different multiples of 4 do not overlap. -/
theorem wordAccessRules : Obligations.WordAccessRules := by
  refine ⟨fun cfg op addr => ?_, fun s t addr v h => ?_⟩
  · rw [memOk_iff, memValid_iff, memRefused_eq_false_iff]
    rfl
  · obtain ⟨hok, rfl⟩ := (memWrite_eq_some_iff s t addr v).1 h
    have ha := ((memOk_iff _ _ _).1 hok).1
    refine ⟨fun hread => ?_, fun addr' hne => memRead_storeWord_ne v ha hne⟩
    exact (memRead_eq_some_iff _ _ _).2 ⟨hread, Memory.readWord_writeWord_self ..⟩

/-! ## The canonical form -/

theorem lookupCell_eq_some_iff {α : Type} {l : List (Nat × α)} (h : l.Pairwise fun x y => x.1 < y.1) (a : Nat) (v : α) :
    lookupCell a l = some v ↔ (a, v) ∈ l := by
  induction l with
  | nil => simp [lookupCell]
  | cons c rest ih =>
    obtain ⟨k, x⟩ := c
    obtain ⟨hk, hrest⟩ := List.pairwise_cons.1 h
    by_cases ha : a = k
    · subst ha
      have hnot : (a, v) ∉ rest := fun hmem => Nat.lt_irrefl a (hk _ hmem)
      simp [lookupCell, hnot, eq_comm]
    · simp [lookupCell, ha, ih hrest]

/-- The entries of a memory in canonical form are what its bytes read as, apart from the default. -/
theorem Memory.mem_iff_readByte {m : Memory} (h : m.wf) (a : Nat) (v : Byte) :
    (a, v) ∈ m ↔ m.readByte a = v ∧ v ≠ unwrittenByte := by
  obtain ⟨hrising, hentry⟩ := h
  rw [← lookupCell_eq_some_iff hrising, Memory.readByte]
  refine ⟨fun hv => ?_, fun ⟨hread, hv⟩ => ?_⟩
  · rw [hv]
    exact ⟨rfl, (hentry _ ((lookupCell_eq_some_iff hrising a v).1 hv)).2⟩
  · cases hl : lookupCell a m with
    | none => exact absurd (by rw [← hread, hl]; rfl) hv
    | some x => rw [← hread, hl]; rfl

/-- Settles O27: the two lists have the same entries, and both list them by rising address. -/
theorem equalMemoriesAreEqualData : Obligations.EqualMemoriesAreEqualData := by
  intro m m' hm hm' hread
  have hnodup {l : Memory} (h : l.wf) : l.Nodup := h.1.imp fun hlt heq => hlt.ne (congrArg Prod.fst heq)
  have hperm : m.Perm m' := by
    rw [List.perm_ext_iff_of_nodup (hnodup hm) (hnodup hm')]
    rintro ⟨a, v⟩
    rw [Memory.mem_iff_readByte hm, Memory.mem_iff_readByte hm', hread]
  exact hperm.eq_of_pairwise (fun x y _ _ hxy hyx => absurd hxy (Nat.lt_asymm hyx)) hm.1 hm'.1

/-! ## READ and WRITE -/

/-- All that the state after a store differs in, apart from registers written besides. -/
theorem storeWord_effect (s : State) (addr v : Word) : StoreEffect s (s.storeWord addr v).advance [] addr v where
  word := Memory.readWord_writeWord_self ..
  outside := s.storeWord_outside addr v
  registers _ _ := rfl
  flags := rfl
  pc := rfl
  streams := ⟨rfl, rfl⟩
  control := ⟨rfl, rfl, rfl⟩

/-- Settles O24. -/
theorem readInstruction : Obligations.ReadInstruction := by
  refine ⟨fun w h => ⟨decode_read h, ?offset⟩, fun off a d c s hc => ⟨fun hp hok => ?memory, fun b rest hp hin => ?port,
    fun hp hin => ?waiting, fun hp hok => ?fault⟩⟩
  case offset =>
    have hrange := readOffset_inRange (w := w) (extract_eq_of_and_eq h (by decide))
    simp only [readOffsetInRange, Bool.and_eq_true, decide_eq_true_eq] at hrange
    have hcond := BitVec.toInt_eq_toNat_cond (immOf w)
    split at hcond <;> omega
  case memory => exact ⟨_, (exec_read_memory hc hp).trans (withLoaded_ok hok), rfl, setReg_effect s d _ s.input⟩
  case port => exact ⟨_, (exec_read_port hc hp).trans (readPort_of_byte hin d), rfl, setReg_effect s d _ rest⟩
  case waiting => exact (exec_read_port hc hp).trans (readPort_of_empty hin d)
  case fault => exact (exec_read_memory hc hp).trans (withLoaded_fault hok)

/-- Settles O25. -/
theorem writeInstruction : Obligations.WriteInstruction := by
  refine ⟨fun w h hslot => ⟨decode_write h hslot, ?offset⟩, fun off a b c s hc => ⟨fun hp hok => ?memory,
    fun hp => ?port, fun hp hok => ?fault⟩⟩
  case offset =>
    have hrange := writeOffset_inRange (w := w) (extract_eq_of_and_eq h (by decide))
    simpa only [writeOffsetInRange, Bool.and_eq_true, decide_eq_true_eq] using hrange
  case memory => exact ⟨_, (exec_write_memory hc hp).trans (withStored_ok hok), storeWord_effect s _ _⟩
  case port => exact exec_write_port hc hp
  case fault => exact (exec_write_memory hc hp).trans (withStored_fault hok)

/-! ## PUSH and POP -/

theorem exec_push_ok {a : Reg} {c : Cond} {s : State} (hc : condPass c s = true)
    (hok : memOk s.cfg .write (pushAddress s) = true) :
    exec (.push a c) s =
      .next ((s.storeWord (pushAddress s) (s.reg a)).setReg spReg (pushAddress s)).advance :=
  (exec_push hc a).trans (withStored_ok hok)

theorem exec_push_fault {a : Reg} {c : Cond} {s : State} (hc : condPass c s = true)
    (hok : memOk s.cfg .write (pushAddress s) = false) :
    exec (.push a c) s = .next (s.recordFault .memoryFault (pushAddress s)) :=
  (exec_push hc a).trans (withStored_fault hok)

/-- The state after a POP of the word `v`: the destination first, then the stack pointer (44_stack.md R171). -/
def popped (d : Reg) (v : Word) (s : State) : State :=
  ((s.setReg d v).setReg spReg ((s.setReg d v).reg spReg + stackStep)).advance

theorem exec_pop_ok {d : Reg} {c : Cond} {s : State} (hc : condPass c s = true)
    (hok : memOk s.cfg .read (popAddress s) = true) :
    exec (.pop d c) s = .next (popped d (s.mem.readWord s.cfg.byteOrder (popAddress s).toNat) s) :=
  (exec_pop hc d).trans (withLoaded_ok hok)

theorem exec_pop_fault {d : Reg} {c : Cond} {s : State} (hc : condPass c s = true)
    (hok : memOk s.cfg .read (popAddress s) = false) :
    exec (.pop d c) s = .next (s.recordFault .memoryFault (popAddress s)) :=
  (exec_pop hc d).trans (withLoaded_fault hok)

section popped

variable {d : Reg} (v : Word) (s : State)

theorem popped_reg_destination (hd : d ≠ spReg) : (popped d v s).reg d = v := by
  rw [popped, State.advance_reg, State.reg_setReg_ne _ _ hd, State.reg_setReg_self]

theorem popped_reg_sp (hd : d ≠ spReg) : (popped d v s).reg spReg = s.reg spReg + stackStep := by
  rw [popped, State.advance_reg, State.reg_setReg_self, State.reg_setReg_ne _ _ (Ne.symm hd)]

theorem popped_sp_reg_sp : (popped spReg v s).reg spReg = v + stackStep := by
  rw [popped, State.advance_reg, State.reg_setReg_self, State.reg_setReg_self]

theorem popped_regsKept : RegsKept s (popped d v s) [d, spReg] := by
  intro r hr
  have hne : r ≠ d ∧ r ≠ spReg := by simpa using hr
  obtain ⟨hd, hsp⟩ := hne
  rw [popped, State.advance_reg, State.reg_setReg_ne _ _ hsp, State.reg_setReg_ne _ _ hd]

end popped

/-- Settles O28. -/
theorem pushInstruction : Obligations.PushInstruction := by
  refine ⟨fun w => decode_push, fun a c s hc => ⟨fun hok => ?stored, fun hok => exec_push_fault hc hok,
    fun hp => ?port⟩⟩
  case stored =>
    refine ⟨_, exec_push_ok hc hok, State.reg_setReg_self _ _ _, ?_⟩
    have hstore := storeWord_effect s (pushAddress s) (s.reg a)
    exact { hstore with
      registers := fun r hr => State.reg_setReg_ne (s.storeWord _ _) _ (List.ne_of_not_mem_cons hr) }
  case port =>
    have hfault := exec_push_fault (a := a) hc (hp ▸ memOk_ioAddr s.cfg .write)
    rwa [hp] at hfault

/-- Settles O29. -/
theorem popInstruction : Obligations.PopInstruction := by
  refine ⟨fun w => decode_pop, fun d c s hc => ⟨fun hok => ?loaded, fun hok => exec_pop_fault hc hok,
    fun hp => ?port⟩⟩
  case loaded =>
    refine ⟨_, exec_pop_ok hc hok, fun hd => ⟨popped_reg_destination _ s hd, popped_reg_sp _ s hd⟩, ?_,
      popped_regsKept _ s, fun _ => rfl, rfl, rfl, ⟨rfl, rfl⟩, ⟨rfl, rfl, rfl⟩⟩
    rintro rfl
    exact popped_sp_reg_sp _ s
  case port =>
    have hfault := exec_pop_fault (d := d) hc (hp ▸ memOk_ioAddr s.cfg .read)
    rwa [hp] at hfault

/-- Settles O30: POP loads from where PUSH stored, and the difference of 4 is added back. -/
theorem pushThenPopRestores : Obligations.PushThenPopRestores := by
  intro r c c' s hr hc hc' hwrite hread
  generalize hv : s.reg r = v
  generalize ht : ((s.storeWord (pushAddress s) v).setReg spReg (pushAddress s)).advance = t
  have hpush : exec (.push r c) s = .next t := by rw [exec_push_ok hc hwrite, hv, ht]
  have hsp : t.reg spReg = pushAddress s := by rw [← ht, State.advance_reg, State.reg_setReg_self]
  have hword : t.mem.readWord t.cfg.byteOrder (pushAddress s).toNat = v := by
    rw [← ht]
    exact Memory.readWord_writeWord_self ..
  have hpass : condPass c' t = true := by
    rw [← ht]
    exact hc'
  have hok : memOk t.cfg .read (popAddress t) = true := by
    rw [popAddress, hsp, ← ht]
    exact hread
  have hpop := exec_pop_ok (d := r) hpass hok
  rw [popAddress, hsp, hword] at hpop
  refine ⟨t, _, hpush, hpop, ?_, popped_reg_destination v t hr⟩
  rw [show (14#4 : Reg) = spReg from rfl, popped_reg_sp v t hr, hsp, pushAddress, BitVec.sub_add_cancel]

end Sys2Proof.Machine
end

section
/-! PROOFS. O31, O32, O47 to O49, O52 and O53: HALT and NoOp (45_system.md), reset and launch
(70_reset_and_hazards.md), the text form (30_encoding.md R84). -/

namespace Sys2Proof.Machine

/-! ## HALT and NoOp -/

/-- Settles O31. -/
theorem haltInstruction : Obligations.HaltInstruction :=
  ⟨fun _ => decode_halt, fun _ _ hc => exec_halt hc⟩

/-- Settles O32: the gating of an empty effect is the empty effect. -/
theorem noOpHasNoEffect : Obligations.NoOpHasNoEffect := by
  intro c s
  cases hc : condPass c s with
  | true => exact gated_pass hc
  | false => exact gated_fail hc

/-! ## Reset and launch -/

/-- Settles O47. -/
theorem resetBeatsStep : Obligations.ResetBeatsStep :=
  ⟨fun _ => rfl, fun _ _ => rfl, fun _ => ⟨rfl, rfl⟩⟩

/-- Settles O48. -/
theorem resetValues : Obligations.ResetValues := ⟨rfl, rfl, rfl, rfl, rfl⟩

/-- Settles O49. -/
theorem launchPremises : Obligations.LaunchPremises := fun s bytes =>
  ⟨s.launch_halted bytes, s.launch_fault bytes, s.launch_pc bytes, s.launch_output bytes, s.launch_input bytes,
    s.launch_reg bytes, s.launch_flags bytes, s.launch_mem bytes, s.launch_cfg bytes⟩

/-! ## The text form -/

/-- Settles O52. -/
theorem knownWordsRender : Obligations.KnownWordsRender := by
  unfold Obligations.KnownWordsRender
  decide

theorem condSuffix_length (c : Cond) : (condSuffix c).toList.length ≤ 4 := by
  cases c <;> decide

/-- The mnemonic with its letter `f`: four letters and the `f`, or the five of WRITE, which has none. -/
theorem mnemonic_flagLetter_length (i : Instr) : (i.mnemonic ++ flagLetter i).toList.length ≤ 5 := by
  have hletter (f : ArithFields) : (if f.setFlags then "f" else "").toList.length ≤ 1 := by
    split <;> decide
  rw [String.toList_append, List.length_append]
  cases i with
  | or f c | xor f c | and f c | andn f c | unassigned f c | rol f c | add f c | sub f c =>
    refine Nat.add_le_add (?_ : _ ≤ 4) (hletter f)
    simp only [Instr.mnemonic]
    decide
  | ldhi | read | write | push | pop | halt =>
    simp only [Instr.mnemonic, flagLetter, Instr.arithFields?]
    decide

/-- Settles O53: at most five characters before the suffix, at most four in it. -/
theorem mnemonicTokensFit : Obligations.MnemonicTokensFit := by
  intro i
  rw [mnemonicToken, String.toList_append, List.length_append]
  exact Nat.add_le_add (mnemonic_flagLetter_length i) (condSuffix_length i.cond)

end Sys2Proof.Machine
end
